-- ==== Sys2Proof/Word.lean ====
section
/-! DEFINITION. The word types of INTONE-FSK: the 32-bit register cell (00_scope.md, XLEN = 32), the
8-bit message cell (10_state.md R35), the machine's sample values and the coded word of a sample
(20_memory.md R62). -/

namespace Sys2Proof

/-- A REG cell: 32 bits (20_memory.md R60). -/
abbrev Word := BitVec 32

/-- A MSG cell: 8 bits (10_state.md R35). -/
abbrev Byte := BitVec 8

/-- The name of one value of the machine's `NUM.S`. No rule adds, shifts or masks a sample; only the numerics
record looks inside. DESIGN CHOICE (log 8). -/
structure Sample where
  name : Nat
deriving DecidableEq, Repr, Inhabited

/-- A word of bits of any width, as a sample value crosses a bus (20_memory.md R62). -/
structure CellWord where
  width : Nat
  bits : BitVec width
deriving DecidableEq, Repr

end Sys2Proof
end

