-- ==== Sys2Proof/Config.lean ====
section
/-! DEFINITION. What an implementation fixes and the spec leaves open: the numerics record `NUM`
(42_shared_numerics.md R190), the capacities `MSG_MAX` and `SAMP_MAX` (00_scope.md R11), and the free
values (93_implementation_defined.md U1, U2, U4). -/

namespace Sys2Proof

/-- The bus coding of a sample type: `NUM.W`, `NUM.enc`, `NUM.dec` (20_memory.md R62; 42_shared_numerics.md
R190). -/
structure BusCoding (S : Type) where
  /-- The width of an SMP cell on a physical bus, in bits. -/
  W : ℕ
  /-- The coded word of a value. -/
  enc : S → BitVec W
  /-- The value of a coded word. -/
  dec : BitVec W → S

/-- The numerics record `NUM` over a sample type `S` (42_shared_numerics.md R190). The machine assumes
nothing of the fields but that each is a function of its arguments (R199). -/
structure Num (S : Type) where
  /-- The sample 0. -/
  zero : S
  /-- `sin2pi q`, ideal value `sin (2π q)`, `q` an exact rational in turns (R191). -/
  sin2pi : ℚ → S
  /-- Ideal value: the largest absolute value of the list (R192). -/
  absmax : List S → S
  /-- Ideal value: `x = 0` (R193). -/
  isZero : S → Bool
  /-- Ideal value: `x / m` (R194). -/
  div : S → S → S
  /-- Ideal value: the least index of a DFT bin of largest magnitude (R195). -/
  peakBin : List S → ℕ
  /-- The real number a sample denotes; `none` marks a non-number (R196). -/
  real : S → Option ℝ
  /-- `W`, `enc`, `dec`; `none` for a record without a finite coding, as `NUM_REAL` (R190, R201;
  20_memory.md R62). -/
  coding : Option (BusCoding S)
deriving Inhabited

/-- The open parameters of one implementation, over its sample type. The types carry the constraints of
00_scope.md R11: `1 ≤ MSG_MAX`, `8 * MSG_MAX < 2^32`, `1 ≤ SAMP_MAX < 2^31`. -/
structure Config (S : Type) where
  /-- The highest MSG index, `MSG_MAX - 1`. -/
  msgTop : Fin 536870911
  /-- The highest SMP index, `SAMP_MAX - 1`. -/
  sampTop : Fin 2147483647
  /-- The numerics record. -/
  num : Num S
deriving Inhabited

/-- `MSG_MAX`, the number of MSG cells (00_scope.md section 5). -/
def Config.msgMax {S : Type} (cfg : Config S) : ℕ := cfg.msgTop.val + 1

/-- `SAMP_MAX`, the number of SMP cells (00_scope.md section 5). -/
def Config.sampMax {S : Type} (cfg : Config S) : ℕ := cfg.sampTop.val + 1

/-- The machine's parameters but for its bus coding: open, nothing in Lean can evaluate them
(93_implementation_defined.md U5 to U7). DESIGN CHOICE (log 9). -/
opaque Config.chipParameters : Config Sample

/-- `NUM.W` of the machine, open as well: ONE width for every access (20_memory.md R62; log 9). -/
opaque Config.chipWidth : ℕ

/-- `NUM.enc` of the machine (20_memory.md R62; log 9). -/
opaque Config.chipEnc : Sample → BitVec Config.chipWidth

/-- `NUM.dec` of the machine (20_memory.md R62; log 9). -/
opaque Config.chipDec : BitVec Config.chipWidth → Sample

/-- The machine's bus coding. -/
def Config.chipCoding : BusCoding Sample := ⟨Config.chipWidth, Config.chipEnc, Config.chipDec⟩

/-- The implementation the machine is: it sits on a physical bus, so its record has a coding. -/
def Config.chip : Config Sample :=
  { Config.chipParameters with num := { Config.chipParameters.num with coding := some Config.chipCoding } }

/-- A free 32-bit word (93_implementation_defined.md U2, U4; log 3). -/
opaque Config.freeWord : ℕ → Word

/-- A free message byte (93_implementation_defined.md U1, U2, U4; log 3). -/
opaque Config.freeByte : ℕ → Byte

/-- A free sample (93_implementation_defined.md U1, U2; log 3). -/
opaque Config.freeSample {S : Type} [Inhabited S] : ℕ → S

/-- A free choice among the twelve status words a completed command can leave
(93_implementation_defined.md U4; log 7). -/
opaque Config.freeStatus : ℕ → Fin 12

end Sys2Proof
end

