-- ==== Sys2Proof/Syntax.lean ====
section
/-! DEFINITION. The operations of INTONE-FSK as syntax: one constructor per row of
spec/opcode_table.json (30_encoding.md R92, R94, R106). -/

namespace Sys2Proof

/-- The three address spaces (20_memory.md R60). -/
inductive Space where
  | reg
  | msg
  | smp
deriving DecidableEq, Repr

/-- The commands (format CMDWORD) and the host accesses (format ACCESS). An index is a natural
number (30_encoding.md R106). -/
inductive Instr where
  /-- `ENCD`, command word 1: encode with derived duration (40_encode.md R120). -/
  | encd
  /-- `ENCX`, command word 2: encode with explicit duration (40_encode.md R121). -/
  | encx
  /-- `DEC`, command word 3: decode (41_decode.md R150). -/
  | dec
  /-- `RESERVED_CMD`: a command word that is none of the three (30_encoding.md R94). -/
  | reservedCmd (c : Word)
  /-- `RD.REG`: read register `i` (43_host_control.md R210). -/
  | rdReg (i : ℕ)
  /-- `RD.MSG`: read message cell `i` (43_host_control.md R211). -/
  | rdMsg (i : ℕ)
  /-- `RD.SMP`: read sample cell `i` (43_host_control.md R211). -/
  | rdSmp (i : ℕ)
  /-- `WR.REG`: write register `i`, not `CMD` (43_host_control.md R213). -/
  | wrReg (i : ℕ) (v : Word)
  /-- `WR.CMD`: write the command word `c` to `CMD` (43_host_control.md R215). -/
  | wrCmd (c : Word)
  /-- `WR.MSG`: write message cell `i` (43_host_control.md R216). -/
  | wrMsg (i : ℕ) (v : Byte)
  /-- `WR.SMP`: write sample cell `i` (43_host_control.md R216); the value comes in the bus coding
  (20_memory.md R62). -/
  | wrSmp (i : ℕ) (x : CellWord)
deriving DecidableEq, Repr

end Sys2Proof
end

