-- ==== Sys2Proof/WellFormed.lean ====
section
/-! DEFINITION. Which instructions have an encoding, under a bus binding: the width of an access's
index belongs to the binding (30_encoding.md R106). -/

namespace Sys2Proof

/-- The width the platform's bus gives the index field of an access (30_encoding.md R106). The width of a sample
value is not the binding's but the numerics record's `NUM.W` (20_memory.md R62): the access carries a word, and the
machine takes only a word of its own width. -/
structure Binding where
  idxBits : ℕ
deriving DecidableEq, Repr

/-- `i` can be written down under the binding `b`: a reserved word is none of the three commands
(30_encoding.md R92), `WR.REG` does not name `CMD` (that access is `WR.CMD`), and the index
fits its field. An index beyond its space is well formed: it has the outcome `HostFault`
(20_memory.md R66). -/
def Instr.wellFormed (b : Binding) : Instr → Bool
  | .encd => true
  | .encx => true
  | .dec => true
  | .reservedCmd c => c != 1#32 && c != 2#32 && c != 3#32
  | .rdReg i => decide (i < 2 ^ b.idxBits)
  | .rdMsg i => decide (i < 2 ^ b.idxBits)
  | .rdSmp i => decide (i < 2 ^ b.idxBits)
  | .wrReg i _ => i != 0 && decide (i < 2 ^ b.idxBits)
  | .wrCmd _ => true
  | .wrMsg i _ => decide (i < 2 ^ b.idxBits)
  | .wrSmp i _ => decide (i < 2 ^ b.idxBits)

end Sys2Proof
end

