-- ==== Sys2Proof/Decode.lean ====
section
/-! DEFINITION. The decoder, total on any bits and rejecting by name, and the encoder written from the
same tables (30_encoding.md R91, R92, R106; spec/opcode_table.json). -/

namespace Sys2Proof

/-- Why bits on the host port are no access (30_encoding.md R106). -/
inductive DecodeError where
  /-- Fewer bits than a direction, a space and an index. -/
  | tooShort
  /-- The space code 11: only 00, 01 and 10 name a space. -/
  | noSuchSpace
  /-- The bits after the index are not exactly the value the access carries. -/
  | wrongLength
deriving DecidableEq, Repr

/-- One host access in the pattern form `d ss iiii.. vvvv..` of 30_encoding.md R106, first bit first,
with the binding that gives the index width. -/
structure Frame where
  binding : Binding
  bits : List Bool
deriving DecidableEq, Repr

/-- The two encoded forms: a command word (R91) and an access (R106). -/
inductive Encoded where
  | cmdWord (c : Word)
  | access (f : Frame)
deriving DecidableEq, Repr

/-- The `n` low bits of `v`, most significant first. -/
def bitsOf : ℕ → ℕ → List Bool
  | 0, _ => []
  | n + 1, v => v.testBit n :: bitsOf n v

/-- The number a list of bits writes, most significant first. -/
def natOf : List Bool → ℕ
  | [] => 0
  | b :: bs => b.toNat * 2 ^ bs.length + natOf bs

/-- `decodeCmd` of 30_encoding.md R92: the whole word is compared; every other word is reserved (R94). -/
def decodeCmd (c : Word) : Instr :=
  if c = 1#32 then .encd
  else if c = 2#32 then .encx
  else if c = 3#32 then .dec
  else .reservedCmd c

/-- The space code `ss`: 00 REG, 01 MSG, 10 SMP (30_encoding.md R106). -/
def spaceOf : Bool → Bool → Option Space
  | false, false => some .reg
  | false, true => some .msg
  | true, false => some .smp
  | true, true => none

/-- A read of cell `i` of a space. -/
def readOf (sp : Space) (i : ℕ) : Instr :=
  match sp with
  | .reg => .rdReg i
  | .msg => .rdMsg i
  | .smp => .rdSmp i

/-- A write of the value the bits write to cell `i` of a space; a write to register 0 is the write to `CMD`. A
sample's word is as wide as the bits are many. -/
def writeOf (sp : Space) (i : ℕ) (val : List Bool) : Instr :=
  match sp with
  | .reg => if i = 0 then .wrCmd (BitVec.ofNat 32 (natOf val)) else .wrReg i (BitVec.ofNat 32 (natOf val))
  | .msg => .wrMsg i (BitVec.ofNat 8 (natOf val))
  | .smp => .wrSmp i ⟨val.length, BitVec.ofNat val.length (natOf val)⟩

/-- The bits are the value a write to the space carries: one cell of REG or MSG (20_memory.md R60). How wide a
sample is the encoding does not say (R62; 30_encoding.md R106). -/
def carriesValue (sp : Space) (val : List Bool) : Bool :=
  match sp with
  | .reg => val.length == 32
  | .msg => val.length == 8
  | .smp => true

/-- Decoding of an access (30_encoding.md R106). A read carries no value. -/
def decodeFrame (f : Frame) : Except DecodeError Instr :=
  match f.bits with
  | d :: s1 :: s0 :: rest =>
    match spaceOf s1 s0 with
    | none => .error .noSuchSpace
    | some sp =>
      let idx := rest.take f.binding.idxBits
      let val := rest.drop f.binding.idxBits
      if idx.length < f.binding.idxBits then .error .tooShort
      else if d then
        if carriesValue sp val then .ok (writeOf sp (natOf idx) val) else .error .wrongLength
      else if val.isEmpty then .ok (readOf sp (natOf idx))
      else .error .wrongLength
  | _ => .error .tooShort

/-- The decoder. -/
def decode : Encoded → Except DecodeError Instr
  | .cmdWord c => .ok (decodeCmd c)
  | .access f => decodeFrame f

/-- The encoder: the command words of 30_encoding.md R92 and the access patterns of
spec/opcode_table.json, under the binding `b`. -/
def encode (b : Binding) : Instr → Encoded
  | .encd => .cmdWord 1#32
  | .encx => .cmdWord 2#32
  | .dec => .cmdWord 3#32
  | .reservedCmd c => .cmdWord c
  | .rdReg i => .access ⟨b, false :: false :: false :: bitsOf b.idxBits i⟩
  | .rdMsg i => .access ⟨b, false :: false :: true :: bitsOf b.idxBits i⟩
  | .rdSmp i => .access ⟨b, false :: true :: false :: bitsOf b.idxBits i⟩
  | .wrReg i v => .access ⟨b, true :: false :: false :: (bitsOf b.idxBits i ++ bitsOf 32 v.toNat)⟩
  | .wrCmd c => .access ⟨b, true :: false :: false :: (bitsOf b.idxBits 0 ++ bitsOf 32 c.toNat)⟩
  | .wrMsg i v => .access ⟨b, true :: false :: true :: (bitsOf b.idxBits i ++ bitsOf 8 v.toNat)⟩
  | .wrSmp i x => .access ⟨b, true :: true :: false :: (bitsOf b.idxBits i ++ bitsOf x.width x.bits.toNat)⟩

/-- The index width spec/opcode_table.json writes its access patterns with: `iiii`. DESIGN CHOICE (log 13). -/
def tableBinding : Binding := ⟨4⟩

/-- The encoded form a word of spec/opcode_table.json stands for. A row of 32 bits is a command word.
The access rows have 7 (`0 ss iiii`), 8 (`WR.SMP`), 15 (`WR.MSG`) and 39 bits (`WR.REG`, `WR.CMD`);
in whole bytes 7, 15 and 39 are 8, 16 and 40, the bits above the pattern being 0. The one bit `s` of `WR.SMP` is a
word of one bit. DESIGN CHOICE (log 13). -/
def tableEncoded (nbits w : ℕ) : Option Encoded :=
  match nbits with
  | 32 => some (.cmdWord (BitVec.ofNat 32 w))
  | 7 => some (.access ⟨tableBinding, bitsOf 7 w⟩)
  | 8 => some (.access ⟨tableBinding, bitsOf (if w.testBit 7 then 8 else 7) w⟩)
  | 15 => some (.access ⟨tableBinding, bitsOf 15 w⟩)
  | 16 => if w.testBit 15 then none else some (.access ⟨tableBinding, bitsOf 15 w⟩)
  | 39 => some (.access ⟨tableBinding, bitsOf 39 w⟩)
  | 40 => if w.testBit 39 then none else some (.access ⟨tableBinding, bitsOf 39 w⟩)
  | _ => none

/-- The instruction the decoder reads from a word numbered as spec/opcode_table.json numbers it. -/
def decodeTableWord (nbits w : ℕ) : Option Instr :=
  match tableEncoded nbits w with
  | none => none
  | some e =>
    match decode e with
    | .ok i => some i
    | .error _ => none

end Sys2Proof
end

