-- ==== Sys2Proof/Machine/State.lean ====
section
/-! DEFINITION. The state of INTONE-FSK as plain data (10_state.md R20), the reasons a step can stop, and
the state after reset (10_state.md R46). -/

namespace Sys2Proof.Machine

/-- A cell space: the cells written since reset, as (index, value) pairs in ONE canonical form: indices
strictly rising. An unlisted cell holds no value (10_state.md R37), so no entry equals what an unlisted
cell reads as. `Memory Byte` is a list of `Host.Cell`. -/
abbrev Memory (α : Type) := List (ℕ × α)

/-- What the host port returned for the last access: `ok`, `ok` with the value read, or `HostFault`
(20_memory.md R63, R66). The model's own (log 2). -/
inductive Response (S : Type) where
  /-- No access since reset. -/
  | none
  /-- A write: stored, dropped or dispatched. -/
  | ok
  /-- A read of a REG cell. -/
  | word (v : Word)
  /-- A read of a MSG cell. -/
  | byte (v : Byte)
  /-- A read of an SMP cell. -/
  | sample (x : S)
  /-- An index outside its space (20_memory.md R66). -/
  | hostFault
deriving DecidableEq, Repr

/-- What happens next (43_host_control.md R222). The model's own (log 1). -/
inductive Input where
  /-- The host performs the access these bits encode. -/
  | host (f : Frame)
  /-- The engine has its turn. -/
  | engine
  /-- The platform resets the block (70_reset_and_hazards.md R260). -/
  | reset
deriving DecidableEq, Repr

/-- The errors of a command (60_exceptions.md R231). -/
inductive ErrCode where
  | emptyMessage
  | sampleRate
  | f0
  | f1
  | duration
  | rateTooLow
  | rateMismatch
  | degenerateSignal
  | usage
  | capMessage
  | capSamples
deriving DecidableEq, Repr

/-- Why the machine stops with a fault. No instruction of the table ends in one. -/
inductive Fault where
  /-- Raised by `step`: the bits on the host port are no access of 30_encoding.md R106. Safe: the model
  stops (log 13). -/
  | undecodable (e : DecodeError)
  /-- Raised by `step` at an engine turn: `BUSY = 1` and the word `c` in `PEND` is none of the three
  commands, which 43_host_control.md R218 gives no arm and R217 excludes. Safe: the model stops
  (log 14). -/
  | noCommand (c : Word)
deriving DecidableEq, Repr

/-- Why the machine refuses. -/
inductive Refusal where
  /-- Raised by `exec`: the instruction has no meaning in the model yet. Safe: the model stops. -/
  | notModelled (mnemonic : String)
deriving DecidableEq, Repr

/-- The block over a sample type: the registers of 10_state.md R21 that have storage, the latch `PEND` (R39), the
MSG and SMP cells (R35, R36); then two fields of the model's own. The sample type is a parameter, as `NUM.S` is
(42_shared_numerics.md R190): over `ℝ` this is the block of `NUM_REAL`, whose SMP space exists only in the model
(20_memory.md R62). -/
structure Block (S : Type) where
  /-- REG 1, `STATUS` (R23). -/
  status : Word
  /-- REG 2, `SRATE` (R24). -/
  srate : Word
  /-- REG 3, `WRATE` (R25). -/
  wrate : Word
  /-- REG 4, `F0` (R26). -/
  f0 : Word
  /-- REG 5, `F1` (R27). -/
  f1 : Word
  /-- REG 6, `DUR` (R28). -/
  dur : Word
  /-- REG 7, `MLEN` (R29). -/
  mlen : Word
  /-- REG 8, `SLEN` (R30). -/
  slen : Word
  /-- REG 9, `NBITS` (R31). -/
  nbits : Word
  /-- REG 10, `SPB` (R32). -/
  spb : Word
  /-- The hidden latch `PEND` (R39). -/
  pend : Word
  /-- The MSG cells written since reset (R35). -/
  msg : Memory Byte
  /-- The SMP cells written since reset (R36). -/
  smp : Memory S
  /-- The outcome of the last host access. The model's own (log 2). -/
  port : Response S
  /-- How many free values have been drawn. The model's own (log 3). -/
  draws : ℕ
deriving DecidableEq, Repr

/-- The state of the machine: its block, and what is still to come. -/
structure State extends Block Sample where
  /-- What happens next, first to come first. The model's own (log 1). -/
  inputs : List Input
deriving DecidableEq, Repr

/-- The block after reset (10_state.md R46; 70_reset_and_hazards.md R260): MSG and SMP hold no value; `PEND` is
unspecified there and 0 here. DESIGN CHOICE (log 4) for `pend`; the model's own fields start empty (log 2, log 3). -/
def Block.reset {S : Type} : Block S where
  status := 0x00000000#32
  srate := 0x0000AC44#32
  wrate := 0#32
  f0 := 0x0006B6C0#32
  f1 := 0x000D6D80#32
  dur := 0#32
  mlen := 0#32
  slen := 0#32
  nbits := 0#32
  spb := 0#32
  pend := 0#32
  msg := []
  smp := []
  port := .none
  draws := 0

/-- The machine right after reset: its block is, and nothing is still to come (log 1). -/
def State.reset : State where
  toBlock := Block.reset
  inputs := []

end Sys2Proof.Machine
end

