-- ==== Sys2Proof/Machine/Flags.lean ====
section
/-! DEFINITION. The status word: its flags, its values and the error codes (10_state.md R23, R43;
60_exceptions.md R231). There are no condition codes. -/

namespace Sys2Proof.Machine

/-- `STATUS.BUSY`, bit 0 (10_state.md R23). -/
def busyFlag (w : Word) : Bool := w.getLsbD 0

/-- `STATUS.DONE`, bit 1 (10_state.md R23). -/
def doneFlag (w : Word) : Bool := w.getLsbD 1

/-- `STATUS.ERR`, bit 2 (10_state.md R23). -/
def errFlag (w : Word) : Bool := w.getLsbD 2

/-- `STATUS.ECODE`, bits 15:8 (10_state.md R23). -/
def ecodeField (w : Word) : Byte := w.extractLsb' 8 8

/-- `STATUS` as a read shows it: bits 31:16 and 7:3 are hardwired to 0 (10_state.md R23, R34). -/
def statusRead (w : Word) : Word := w &&& 0x0000FF07#32

/-- A command is pending exactly when `STATUS.BUSY = 1` (43_host_control.md R217). -/
def Block.busy {S : Type} (s : Block S) : Bool := busyFlag s.status

/-- The status word while a command is pending (43_host_control.md R215). -/
def busyWord : Word := 0x00000001#32

/-- The status word of a command that completed with success (40_encode.md R131). -/
def successWord : Word := 0x00000002#32

/-- `ECODE`: class in bits 7:4, cause in bits 3:0 (60_exceptions.md R231). -/
def errorCode : ErrCode → ℕ
  | .emptyMessage => 0x11
  | .sampleRate => 0x12
  | .f0 => 0x13
  | .f1 => 0x14
  | .duration => 0x15
  | .rateTooLow => 0x16
  | .rateMismatch => 0x20
  | .degenerateSignal => 0x30
  | .usage => 0x40
  | .capMessage => 0x51
  | .capSamples => 0x52

/-- The status word of a command that ended in an error: `0x00000006 + 256 * code`
(60_exceptions.md R240). -/
def errorWord (e : ErrCode) : Word := BitVec.ofNat 32 (0x00000006 + 256 * errorCode e)

/-- The twelve status words a completed command can leave (60_exceptions.md R231). -/
def completedWord (k : Fin 12) : Word :=
  match k.val with
  | 0 => successWord
  | 1 => errorWord .emptyMessage
  | 2 => errorWord .sampleRate
  | 3 => errorWord .f0
  | 4 => errorWord .f1
  | 5 => errorWord .duration
  | 6 => errorWord .rateTooLow
  | 7 => errorWord .rateMismatch
  | 8 => errorWord .degenerateSignal
  | 9 => errorWord .usage
  | 10 => errorWord .capMessage
  | _ => errorWord .capSamples

end Sys2Proof.Machine
end

