-- ==== Sys2Proof/Machine/Operands.lean ====
section
/-! DEFINITION. The operand forms of the commands (30_encoding.md R96 to R102), the integer and rational
laws (42_shared_numerics.md R184, R185), and the pure stages of the encoder and the decoder over any
numerics record (40_encode.md R123 to R130, 41_decode.md R155 to R161). -/

namespace Sys2Proof.Machine

/-- `uint(v)` (00_scope.md section 6). -/
def uint (v : Word) : ℕ := v.toNat

/-- `sint(v)`, the two's-complement value (00_scope.md section 6). -/
def sint (v : Word) : ℤ := v.toInt

/-- A tone register holds millihertz: an exact rational in hertz (30_encoding.md R97). -/
def toneHz (v : Word) : ℚ := (sint v : ℚ) / 1000

/-- The explicit duration register holds milliseconds: an exact rational in seconds
(30_encoding.md R98). -/
def durationSec (v : Word) : ℚ := (sint v : ℚ) / 1000

/-- `rhe`: round a rational to the nearest integer, ties to the even one
(42_shared_numerics.md R184). -/
def rhe (q : ℚ) : ℕ :=
  let f := ⌊q⌋
  let r := q - (f : ℚ)
  if 1 / 2 < r then (f + 1).toNat
  else if r = 1 / 2 ∧ f % 2 = 1 then (f + 1).toNat
  else f.toNat

/-- The eight bits of a message byte, most significant first (30_encoding.md R99). -/
def bitsOfByte (b : Byte) : List Bool := (List.range 8).map fun p => b.getLsbD (7 - p)

/-- The serializer (40_encode.md R123). -/
def serialize (bytes : List Byte) : List Bool := bytes.flatMap bitsOfByte

/-- The byte of group `c` of a bitstream (30_encoding.md R100): `bits[8c + p]` has weight `2^(7 - p)`. -/
def byteOfBits (bits : List Bool) (c : ℕ) : Byte :=
  BitVec.ofNat 8 (((List.range 8).map fun p => (bits.getD (8 * c + p) false).toNat * 2 ^ (7 - p)).sum)

/-- The deserializer: whole groups of eight bits, a shorter trailing group is dropped
(41_decode.md R161). -/
def deserialize (bits : List Bool) : List Byte := (List.range (bits.length / 8)).map (byteOfBits bits)

/-- `tone(b)`: the two-point mapping 0 to `f0`, 1 to `f1` (30_encoding.md R102). -/
def tone (f0 f1 : ℚ) (b : Bool) : ℚ := if b then f1 else f0

/-- The phase, in turns, of sample `n` of a waveform of `T` samples and `D` seconds that carries the
frequency `f`: `f * t_n` with `t_n = n * D / T`, on the absolute time axis (40_encode.md R126, R127;
90_conflicts.md C1). -/
def phase (f D : ℚ) (T n : ℕ) : ℚ := f * n * D / T

/-- The tone generator before normalization: sample `n` lies in the window of bit `n div spb`; samples
that no window covers stay `NUM.zero` (40_encode.md R127, R128). -/
def waveform {S : Type} (num : Num S) (bits : List Bool) (T spb : ℕ) (D f0 f1 : ℚ) : List S :=
  (List.range T).map fun n =>
    if n < bits.length * spb then
      num.sin2pi (phase (tone f0 f1 (bits.getD (n / spb) false)) D T n)
    else num.zero

/-- The condition of DegenerateSignal (40_encode.md R130): the largest absolute value is zero. With
`spb = 0` no window exists and the waveform is all zero or empty (R120, R121): zero whatever the
numerics record answers. DEDUCED (log 10). -/
def degenerate {S : Type} (num : Num S) (spb : ℕ) (w : List S) : Bool :=
  spb == 0 || num.isZero (num.absmax w)

/-- The normalizer: every sample divided by the largest absolute value, the zero tail included (40_encode.md R129). The
tail so stored is `div zero M`; where that is another value than `zero`, 30_encoding.md R101 and 40_encode.md R121 call
it `NUM.zero` all the same, and R129 is followed. DEDUCED (log 21). -/
def normalizeWave {S : Type} (num : Num S) (w : List S) : List S := w.map fun x => num.div x (num.absmax w)

/-- Segment `j` of a waveform (41_decode.md R157). -/
def waveSegment {S : Type} (xs : List S) (spb j : ℕ) : List S := (xs.drop (j * spb)).take spb

/-- The spectral peak detector's bin, always one of the segment's `L` bins
(42_shared_numerics.md R195). DEDUCED (log 11). -/
def peakIndex {S : Type} (num : Num S) (seg : List S) : ℕ := num.peakBin seg % seg.length

/-- The peak frequency of bin `k` of a length-`L` transform at rate `sr`, in hertz
(41_decode.md R159). -/
def peakHz (k L : ℕ) (sr : ℚ) : ℚ := (min k (L - k) : ℕ) * sr / L

/-- The classifier: 0 when the peak is nearer to `f0`, else 1, ties giving 1 (41_decode.md R160). -/
def classify (f0 f1 peak : ℚ) : Bool := if |peak - f0| < |peak - f1| then false else true

/-- The classified bits of a waveform cut into `B` segments of `spb` samples
(41_decode.md R157 to R160). -/
def decodeBits {S : Type} (num : Num S) (xs : List S) (B spb : ℕ) (sr f0 f1 : ℚ) : List Bool :=
  (List.range B).map fun j => classify f0 f1 (peakHz (peakIndex num (waveSegment xs spb j)) spb sr)

/-- The value of a coded word, if the word is one whole cell of the record's bus coding: exactly `NUM.W` bits wide
(20_memory.md R62, R69). -/
def sampleOfWord {S : Type} (num : Num S) (w : CellWord) : Option S :=
  match num.coding with
  | none => none
  | some c => if h : w.width = c.W then some (c.dec (w.bits.cast h)) else none

/-- The coded word of a value, if the record has a bus coding (20_memory.md R62). -/
def wordOfSample {S : Type} (num : Num S) (x : S) : Option CellWord :=
  match num.coding with
  | none => none
  | some c => some ⟨c.W, c.enc x⟩

end Sys2Proof.Machine
end

