-- ==== Sys2Proof/Machine/Ops.lean ====
section
/-! DEFINITION. The named operations over the cells and the registers, and the one operation by which a
command ends in an error (60_exceptions.md R240). -/

namespace Sys2Proof.Machine

variable {S : Type}

/-- The cell `i`, if anything has written it since reset (10_state.md R37). -/
def Memory.read {α : Type} (m : Memory α) (i : ℕ) : Option α :=
  match m with
  | [] => none
  | (j, v) :: rest => if i = j then some v else if i < j then none else Memory.read rest i

/-- Cell `i` takes the value `v`. -/
def Memory.write {α : Type} (m : Memory α) (i : ℕ) (v : α) : Memory α :=
  match m with
  | [] => [(i, v)]
  | (j, u) :: rest =>
    if i < j then (i, v) :: (j, u) :: rest
    else if i = j then (i, v) :: rest
    else (j, u) :: Memory.write rest i v

/-- The values `vs` as the cells from `i` on. -/
def Memory.block {α : Type} (i : ℕ) (vs : List α) : Memory α :=
  match vs with
  | [] => []
  | v :: rest => (i, v) :: Memory.block (i + 1) rest

/-- The commit of a command: cells `0 ..< vs.length` take the values `vs`, the cells from there on keep
theirs (40_encode.md R131, 41_decode.md R163). -/
def Memory.writePrefix {α : Type} (m : Memory α) (vs : List α) : Memory α :=
  Memory.block 0 vs ++ m.filter fun c => decide (vs.length ≤ c.1)

/-- The canonical form: indices strictly rising. -/
def Memory.wf {α : Type} (m : Memory α) : Bool :=
  match m with
  | [] => true
  | [_] => true
  | a :: b :: rest => decide (a.1 < b.1) && Memory.wf (b :: rest)

/-- An operation of the block, done by the machine: what is still to come stays. -/
def State.onBlock (f : Block Sample → Block Sample) (s : State) : State := { s with toBlock := f s.toBlock }

/-- The host port returns `r` (20_memory.md R63). -/
def Block.respond (r : Response S) (s : Block S) : Block S := { s with port := r }

/-- `k` free values have been used (log 3). -/
def Block.drawn (k : ℕ) (s : Block S) : Block S := { s with draws := s.draws + k }

/-- A register as a host read shows it while `BUSY = 0`: `CMD` reads 0, the zero fields of `STATUS` are
hardwired (43_host_control.md R210; 10_state.md R22, R23, R34). Numbers 11 and above name no register
(10_state.md R33). -/
def Block.readReg (s : Block S) (r : ℕ) : Word :=
  match r with
  | 1 => statusRead s.status
  | 2 => s.srate
  | 3 => s.wrate
  | 4 => s.f0
  | 5 => s.f1
  | 6 => s.dur
  | 7 => s.mlen
  | 8 => s.slen
  | 9 => s.nbits
  | 10 => s.spb
  | _ => 0#32

/-- The read-write registers 2 to 8 store all 32 bits, a write to a read-only one is dropped
(43_host_control.md R213). `CMD` is written through `writeCmd`. -/
def Block.writeReg (s : Block S) (r : ℕ) (v : Word) : Block S :=
  match r with
  | 2 => { s with srate := v }
  | 3 => { s with wrate := v }
  | 4 => { s with f0 := v }
  | 5 => { s with f1 := v }
  | 6 => { s with dur := v }
  | 7 => { s with mlen := v }
  | 8 => { s with slen := v }
  | _ => s

/-- `raise E(code)`: the command ends, `STATUS` is `0x00000006 + 256 * code` and nothing else is written
(60_exceptions.md R240). No return exists: the block is idle after it, and the next write to `CMD`
overwrites the status (R244). -/
def raise (e : ErrCode) (s : Block S) : Block S := { s with status := errorWord e }

/-- Acceptance of a command: `PEND` takes the word, `STATUS` becomes busy (43_host_control.md R215). -/
def accept (c : Word) (s : Block S) : Block S := { s with pend := c, status := busyWord }

/-- A write of the word `c` to `CMD` while `BUSY = 0` (43_host_control.md R215). -/
def dispatch (c : Word) (s : Block S) : Block S :=
  match decodeCmd c with
  | .encd => accept c s
  | .encx => accept c s
  | .dec => accept c s
  | _ => raise .usage s

/-- The commit of an encode (40_encode.md R131). -/
def commitEncode (out : List S) (bitCount spb : ℕ) (s : Block S) : Block S :=
  { s with
    smp := Memory.writePrefix s.smp out
    slen := BitVec.ofNat 32 out.length
    wrate := s.srate
    nbits := BitVec.ofNat 32 bitCount
    spb := BitVec.ofNat 32 spb
    status := successWord }

/-- The commit of a decode (41_decode.md R163). -/
def commitDecode (bytes : List Byte) (bitCount spb : ℕ) (s : Block S) : Block S :=
  { s with
    msg := Memory.writePrefix s.msg bytes
    mlen := BitVec.ofNat 32 bytes.length
    nbits := BitVec.ofNat 32 bitCount
    spb := BitVec.ofNat 32 spb
    status := successWord }

/-- The message cell `i` as a command reads it: a cell nothing has written gives the free value drawn for
its index (93_implementation_defined.md U1; log 5). -/
def messageByte (s : Block S) (i : ℕ) : Byte :=
  (Memory.read s.msg i).getD (Config.freeByte (s.draws + i))

/-- `MSG[0 ..< n]` as a command reads it. -/
def messageBytes (s : Block S) (n : ℕ) : List Byte := (List.range n).map (messageByte s)

/-- The sample cell `i` as a command reads it (93_implementation_defined.md U1; log 5). -/
def sampleValue [Inhabited S] (s : Block S) (i : ℕ) : S :=
  (Memory.read s.smp i).getD (Config.freeSample (s.draws + i))

/-- `SMP[0 ..< n]` as a command reads it. -/
def sampleValues [Inhabited S] (s : Block S) (n : ℕ) : List S := (List.range n).map (sampleValue s)

end Sys2Proof.Machine
end

