-- ==== Sys2Proof/Machine/DecodeCommand.lean ====
section
/-! DEFINITION. The decode command `DEC` (41_decode.md R150 to R163), one engine step. -/

namespace Sys2Proof.Machine

variable {S : Type}

/-- `d = sr div 10`, the samples per bit at 10 bits per second (41_decode.md R155). -/
def decodeUnit (s : Block S) : ℕ := (sint s.srate).toNat / 10

/-- `B = N div d` (41_decode.md R155). -/
def decodeCount (s : Block S) : ℕ := uint s.slen / decodeUnit s

/-- `spb = N div B`, reported as 0 when `B = 0` (41_decode.md R156). -/
def decodeSpb (s : Block S) : ℕ := if decodeCount s = 0 then 0 else uint s.slen / decodeCount s

/-- The first failing check, in the order of 60_exceptions.md R243 (41_decode.md R151 to R153, R162). -/
def decodeCheck (cfg : Config S) (s : Block S) : Option ErrCode :=
  if sint s.srate ≤ 0 then some .sampleRate
  else if sint s.srate < 10 then some .rateTooLow
  else if sint s.f0 ≤ 0 then some .f0
  else if sint s.f1 ≤ 0 then some .f1
  else if cfg.sampMax < uint s.slen then some .capSamples
  else if sint s.wrate ≠ sint s.srate then some .rateMismatch
  else if cfg.msgMax < decodeCount s / 8 then some .capMessage
  else none

/-- The samples a decode reads, `SMP[0 ..< B * spb]` (20_memory.md R74). -/
def decodeSamples [Inhabited S] (s : Block S) : List S := sampleValues s (decodeCount s * decodeSpb s)

/-- The decoded bytes (41_decode.md R157 to R161). -/
def decodeBytes [Inhabited S] (cfg : Config S) (s : Block S) : List Byte :=
  deserialize (decodeBits cfg.num (decodeSamples s) (decodeCount s) (decodeSpb s) (sint s.srate : ℚ)
    (toneHz s.f0) (toneHz s.f1))

/-- Every sample read denotes a real number (42_shared_numerics.md R196). -/
def allNumbers (num : Num S) (xs : List S) : Bool := xs.all fun x => (num.real x).isSome

/-- A decode of `m` bytes that met a non-number: the command ends, and `STATUS`, `MLEN`, `NBITS`, `SPB`
and the `m` message cells are any values within their types (93_implementation_defined.md U4; log 7). -/
def unspecifiedDecode (m : ℕ) (s : Block S) : Block S :=
  { s with
    msg := Memory.writePrefix s.msg ((List.range m).map fun c => Config.freeByte (s.draws + c))
    mlen := Config.freeWord s.draws
    nbits := Config.freeWord (s.draws + 1)
    spb := Config.freeWord (s.draws + 2)
    status := completedWord (Config.freeStatus s.draws)
    draws := s.draws + (m + 3) }

/-- The engine step of a decode (41_decode.md R150). -/
def decodeStep [Inhabited S] (cfg : Config S) (s : Block S) : Block S :=
  match decodeCheck cfg s with
  | some e => raise e s
  | none =>
    let read := s.drawn (decodeCount s * decodeSpb s)
    if allNumbers cfg.num (decodeSamples s) then
      commitDecode (decodeBytes cfg s) (decodeCount s) (decodeSpb s) read
    else unspecifiedDecode (decodeCount s / 8) read

/-- `DEC` (41_decode.md R150). -/
def execDec (s : State) : Host.Outcome State Fault Refusal := .next (s.onBlock (decodeStep Config.chip))

end Sys2Proof.Machine
end

