-- ==== Sys2Proof/Machine/EncodeCommands.lean ====
section
/-! DEFINITION. The encode commands `ENCD` and `ENCX` (40_encode.md R120 to R131). Each is one engine
step. -/

namespace Sys2Proof.Machine

variable {S : Type}

/-- Where an encode's duration comes from: the opcode says (30_encoding.md R93). -/
inductive DurationRule where
  /-- `ENCD`: 10 bits per second. -/
  | derived
  /-- `ENCX`: the register `DUR`. -/
  | explicit
deriving DecidableEq, Repr

/-- `B = 8 * len` (40_encode.md R123). -/
def encodeBits (s : Block S) : ℕ := 8 * uint s.mlen

/-- The duration `D` in seconds (40_encode.md R120, R121). -/
def encodeDuration (v : DurationRule) (s : Block S) : ℚ :=
  match v with
  | .derived => (encodeBits s : ℚ) / 10
  | .explicit => durationSec s.dur

/-- The total sample count `T = rhe(D * sr)` (40_encode.md R124). -/
def encodeTotal (v : DurationRule) (s : Block S) : ℕ := rhe (encodeDuration v s * (sint s.srate : ℚ))

/-- The samples per bit `spb = T div B` (40_encode.md R125). -/
def encodeSpb (v : DurationRule) (s : Block S) : ℕ := encodeTotal v s / encodeBits s

/-- The first failing check, in the order of 60_exceptions.md R243 (40_encode.md R122). -/
def encodeCheck (cfg : Config S) (v : DurationRule) (s : Block S) : Option ErrCode :=
  if uint s.mlen = 0 then some .emptyMessage
  else if sint s.srate ≤ 0 then some .sampleRate
  else if sint s.f0 ≤ 0 then some .f0
  else if sint s.f1 ≤ 0 then some .f1
  else if v = .explicit ∧ sint s.dur ≤ 0 then some .duration
  else if cfg.msgMax < uint s.mlen then some .capMessage
  else if cfg.sampMax < encodeTotal v s then some .capSamples
  else none

/-- The waveform before normalization (40_encode.md R127, R128). -/
def encodeWave (cfg : Config S) (v : DurationRule) (s : Block S) : List S :=
  waveform cfg.num (serialize (messageBytes s (uint s.mlen))) (encodeTotal v s) (encodeSpb v s)
    (encodeDuration v s) (toneHz s.f0) (toneHz s.f1)

/-- The engine step of an encode (40_encode.md R120, R121). The free values that stand for unwritten
message cells are used up whether it commits or ends in DegenerateSignal (log 5). -/
def encodeStep (cfg : Config S) (v : DurationRule) (s : Block S) : Block S :=
  match encodeCheck cfg v s with
  | some e => raise e s
  | none =>
    let w := encodeWave cfg v s
    let read := s.drawn (uint s.mlen)
    if degenerate cfg.num (encodeSpb v s) w then raise .degenerateSignal read
    else commitEncode (normalizeWave cfg.num w) (encodeBits s) (encodeSpb v s) read

/-- `ENCD` (40_encode.md R120): the engine step; that it is enabled is the step's concern
(43_host_control.md R218). -/
def execEncd (s : State) : Host.Outcome State Fault Refusal :=
  .next (s.onBlock (encodeStep Config.chip .derived))

/-- `ENCX` (40_encode.md R121). -/
def execEncx (s : State) : Host.Outcome State Fault Refusal :=
  .next (s.onBlock (encodeStep Config.chip .explicit))

end Sys2Proof.Machine
end

