-- ==== Sys2Proof/Machine/HostAccess.lean ====
section
/-! DEFINITION. The host's reads and writes of the three spaces and the write to `CMD`
(43_host_control.md R210 to R216; 20_memory.md R64 to R66). -/

namespace Sys2Proof.Machine

variable {S : Type}

/-- The highest index of a space (20_memory.md R60). -/
def topIndex (cfg : Config S) (sp : Space) : ℕ :=
  match sp with
  | .reg => 10
  | .msg => cfg.msgTop.val
  | .smp => cfg.sampTop.val

/-- A register the host reads while a command is pending: `STATUS` is 1, `CMD` is 0, the parameter
registers hold, the registers the command may write give a free value
(43_host_control.md R212; 93_implementation_defined.md U2). -/
def readRegBusy (s : Block S) (r : ℕ) : Block S :=
  match r with
  | 0 => s.respond (.word 0#32)
  | 1 => s.respond (.word busyWord)
  | 2 => s.respond (.word s.srate)
  | 4 => s.respond (.word s.f0)
  | 5 => s.respond (.word s.f1)
  | 6 => s.respond (.word s.dur)
  | _ => (s.respond (.word (Config.freeWord s.draws))).drawn 1

/-- `RD` of a cell inside its space (43_host_control.md R210 to R212). A cell nothing has written, and a
cell a pending command may write, give a free value; no read changes any cell or register
(20_memory.md R64). -/
def readCell [Inhabited S] (sp : Space) (i : ℕ) (s : Block S) : Block S :=
  match sp with
  | .reg => if s.busy then readRegBusy s i else s.respond (.word (s.readReg i))
  | .msg =>
    match if s.busy then none else Memory.read s.msg i with
    | some v => s.respond (.byte v)
    | none => (s.respond (.byte (Config.freeByte s.draws))).drawn 1
  | .smp =>
    match if s.busy then none else Memory.read s.smp i with
    | some x => s.respond (.sample x)
    | none => (s.respond (.sample (Config.freeSample s.draws))).drawn 1

/-- `MemRead(space, index)` (20_memory.md R64): an index outside the space is a `HostFault` and changes
no state (R66; log 12). -/
def memRead [Inhabited S] (cfg : Config S) (sp : Space) (i : ℕ) (s : Block S) : Block S :=
  if topIndex cfg sp < i then s.respond .hostFault else readCell sp i s

/-- `MemWrite(space, index, v)` (20_memory.md R65), with `store` the write rule of the space: outside the
space a `HostFault`, while a command is pending dropped (43_host_control.md R214), else stored; the
port answers `ok` in both cases. -/
def memWrite (cfg : Config S) (sp : Space) (i : ℕ) (store : Block S → Block S) (s : Block S) : Block S :=
  if topIndex cfg sp < i then s.respond .hostFault
  else if s.busy then s.respond .ok
  else (store s).respond .ok

/-- The write rule of a REG cell: register 0 is `CMD` (43_host_control.md R213, R215). -/
def storeReg (r : ℕ) (v : Word) (s : Block S) : Block S := if r = 0 then dispatch v s else s.writeReg r v

/-- The write rule of a MSG cell (43_host_control.md R216). -/
def storeMsg (i : ℕ) (v : Byte) (s : Block S) : Block S := { s with msg := Memory.write s.msg i v }

/-- The write rule of an SMP cell (43_host_control.md R216). -/
def storeSmp (i : ℕ) (x : S) (s : Block S) : Block S := { s with smp := Memory.write s.smp i x }

/-- A write of a sample as it comes over the bus (20_memory.md R62): the cell takes the value of the word. A word
that is not one whole cell, or any word where the record has no bus coding, is a `HostFault` (R69, R82; log 8). -/
def memWriteWord (cfg : Config S) (i : ℕ) (w : CellWord) (s : Block S) : Block S :=
  match sampleOfWord cfg.num w with
  | none => s.respond .hostFault
  | some x => memWrite cfg .smp i (storeSmp i x) s

/-- `RESERVED_CMD`: a reserved word written to `CMD` while `BUSY = 0` posts UsageError and starts nothing
(30_encoding.md R94; 43_host_control.md R215); while `BUSY = 1` it is dropped (R214). -/
def execReservedCmd (_c : Word) (s : State) : Host.Outcome State Fault Refusal :=
  .next (s.onBlock (memWrite Config.chip .reg 0 (raise .usage)))

/-- `RD.REG` (43_host_control.md R210, R212). -/
def execRdReg (i : ℕ) (s : State) : Host.Outcome State Fault Refusal := .next (s.onBlock (memRead Config.chip .reg i))

/-- `RD.MSG` (43_host_control.md R211, R212). -/
def execRdMsg (i : ℕ) (s : State) : Host.Outcome State Fault Refusal := .next (s.onBlock (memRead Config.chip .msg i))

/-- `RD.SMP` (43_host_control.md R211, R212). -/
def execRdSmp (i : ℕ) (s : State) : Host.Outcome State Fault Refusal := .next (s.onBlock (memRead Config.chip .smp i))

/-- `WR.REG` (43_host_control.md R213, R214). -/
def execWrReg (i : ℕ) (v : Word) (s : State) : Host.Outcome State Fault Refusal :=
  .next (s.onBlock (memWrite Config.chip .reg i (storeReg i v)))

/-- `WR.CMD`: command dispatch (43_host_control.md R215, R214). -/
def execWrCmd (c : Word) (s : State) : Host.Outcome State Fault Refusal :=
  .next (s.onBlock (memWrite Config.chip .reg 0 (storeReg 0 c)))

/-- `WR.MSG` (43_host_control.md R216, R214). -/
def execWrMsg (i : ℕ) (v : Byte) (s : State) : Host.Outcome State Fault Refusal :=
  .next (s.onBlock (memWrite Config.chip .msg i (storeMsg i v)))

/-- `WR.SMP` (43_host_control.md R216, R214; 20_memory.md R62). -/
def execWrSmp (i : ℕ) (x : CellWord) (s : State) : Host.Outcome State Fault Refusal :=
  .next (s.onBlock (memWriteWord Config.chip i x))

end Sys2Proof.Machine
end

