-- ==== Sys2Proof/Machine/Dispatch.lean ====
section
/-! DEFINITION. One arm per instruction of spec/opcode_table.json. -/

namespace Sys2Proof.Machine

def exec (i : Instr) (s : State) : Host.Outcome State Fault Refusal :=
  match i with
  | .encd => Sys2Proof.Machine.execEncd s
  | .encx => Sys2Proof.Machine.execEncx s
  | .dec => Sys2Proof.Machine.execDec s
  | .reservedCmd c => Sys2Proof.Machine.execReservedCmd c s
  | .rdReg k => Sys2Proof.Machine.execRdReg k s
  | .rdMsg k => Sys2Proof.Machine.execRdMsg k s
  | .rdSmp k => Sys2Proof.Machine.execRdSmp k s
  | .wrReg k v => Sys2Proof.Machine.execWrReg k v s
  | .wrCmd c => Sys2Proof.Machine.execWrCmd c s
  | .wrMsg k v => Sys2Proof.Machine.execWrMsg k v s
  | .wrSmp k x => Sys2Proof.Machine.execWrSmp k x s

end Sys2Proof.Machine
end

