-- ==== Sys2Proof/Machine/Fetch.lean ====
section
/-! DEFINITION. What runs next: the host's access at the head of the inputs, or the engine's pending
command (43_host_control.md R218, R222). There is no program counter (10_state.md R41). -/

namespace Sys2Proof.Machine

/-- The command the engine step performs: the one `PEND` holds, of the three
(43_host_control.md R218). -/
def pendingCommand (s : State) : Option Instr :=
  match decodeCmd s.pend with
  | .encd => some .encd
  | .encx => some .encx
  | .dec => some .dec
  | _ => none

/-- The head of the inputs has had its turn. -/
def State.consume (s : State) : State := { s with inputs := s.inputs.tail }

/-- The platform resets the block: every register, latch and cell is as after reset, a pending command is
abandoned (70_reset_and_hazards.md R260, R261). What is still to come and the count of free values used
are not the block's and stay (log 16). -/
def Block.resetEvent {S : Type} (s : Block S) : Block S := { Block.reset with draws := s.draws }

/-- The engine's turn: enabled exactly when `BUSY = 1` (43_host_control.md R218); while the block is idle
nothing happens (log 15). -/
def engineTurn (s : State) : Host.Outcome State Fault Refusal :=
  if s.busy then
    match pendingCommand s with
    | some i => exec i s
    | none => .fault (.noCommand s.pend)
  else .next s

/-- The host's turn: the access the bits encode. -/
def hostTurn (f : Frame) (s : State) : Host.Outcome State Fault Refusal :=
  match decodeFrame f with
  | .ok i => exec i s
  | .error e => .fault (.undecodable e)

/-- One turn. When nothing is listed a pending command still runs, since its engine step is enabled
(43_host_control.md R222, 70_reset_and_hazards.md R279); an idle block with nothing to come stays as it
is (60_exceptions.md R256; log 15). -/
def turn (s : State) : Host.Outcome State Fault Refusal :=
  match s.inputs with
  | [] => engineTurn s
  | .host f :: _ => hostTurn f s.consume
  | .engine :: _ => engineTurn s.consume
  | .reset :: _ => .next (s.consume.onBlock Block.resetEvent)

/-- `s` with the encoded instruction next to run. A command is the accepted one, with the engine's turn
next; a reserved word is on its way to `CMD`, where 43_host_control.md R215 runs it; an access is the
host's next (log 1). -/
def placeNext (s : State) (e : Encoded) : State :=
  match e with
  | .access f => { s with inputs := .host f :: s.inputs }
  | .cmdWord c =>
    match decodeCmd c with
    | .reservedCmd r =>
      { s with inputs := .host ⟨tableBinding, true :: false :: false :: (bitsOf 4 0 ++ bitsOf 32 r.toNat)⟩ :: s.inputs }
    | _ => { s.onBlock (accept c) with inputs := .engine :: s.inputs }

/-- `s` with a word of spec/opcode_table.json next to run. -/
def placeTableWord (s : State) (nbits w : ℕ) : State :=
  match tableEncoded nbits w with
  | some e => placeNext s e
  | none => s

end Sys2Proof.Machine
end

