-- ==== Sys2Proof/Machine/Step.lean ====
section
/-! DEFINITION. The step and the place of the next instruction; the work is in Machine/Fetch.lean. -/

namespace Sys2Proof.Machine

/-- One step of the block and its host (43_host_control.md R222). -/
def step (s : State) : Host.Outcome State Fault Refusal := turn s

/-- `s` with the instruction of the word `w` (numbered as spec/opcode_table.json) next to run. -/
def State.withFetchWord (s : State) (nbits w : ℕ) : State := placeTableWord s nbits w

end Sys2Proof.Machine
end

