-- ==== Sys2Proof/Machine/Relation.lean ====
section
/-! DEFINITION. The step relation of 43_host_control.md R222 over any sample type and any parameters: the numerics
record is a parameter of the relation (42_shared_numerics.md R190; 00_scope.md R13). Over `ℝ` it is the machine of
`NUM_REAL`, whose samples have no coding (20_memory.md R62). The machine of the host's interface is its instance at
`Config.chip`, with the accesses in their encodings. -/

namespace Sys2Proof.Machine

variable {S : Type}

/-- The steps of 43_host_control.md R222; a host write carries one cell value (20_memory.md R63). -/
inductive Move (S : Type) where
  | read (sp : Space) (i : ℕ)
  | writeReg (r : ℕ) (v : Word)
  | writeMsg (i : ℕ) (v : Byte)
  | writeSmp (i : ℕ) (x : S)
  | engine
  | reset
deriving DecidableEq, Repr

/-- The engine step: the command `PEND` holds (43_host_control.md R218). -/
def engineMove [Inhabited S] (cfg : Config S) (b : Block S) : Option (Block S) :=
  match decodeCmd b.pend with
  | .encd => some (encodeStep cfg .derived b)
  | .encx => some (encodeStep cfg .explicit b)
  | .dec => some (decodeStep cfg b)
  | _ => none

/-- One step of the block; `none` where it is not enabled: the engine's while `BUSY = 0`
(43_host_control.md R222). -/
def blockStep [Inhabited S] (cfg : Config S) (m : Move S) (b : Block S) : Option (Block S) :=
  match m with
  | .read sp i => some (memRead cfg sp i b)
  | .writeReg r v => some (memWrite cfg .reg r (storeReg r v) b)
  | .writeMsg i v => some (memWrite cfg .msg i (storeMsg i v) b)
  | .writeSmp i x => some (memWrite cfg .smp i (storeSmp i x) b)
  | .engine => if b.busy then engineMove cfg b else none
  | .reset => some b.resetEvent

end Sys2Proof.Machine
end

