-- ==== Sys2Proof/Safety.lean ====
section
/-! DEFINITION. The terms claims use: the invariant of a run, the named properties of a numerics record
(42_shared_numerics.md R197, R198, R200) and the reference instance `NUM_REAL` (R201). Nothing here is part
of the step. -/

namespace Sys2Proof.Machine

/-- The values `STATUS` can have (10_state.md R23): no command since reset, busy, or one of the twelve words
of a completed command (60_exceptions.md R231). -/
def legalStatus (w : Word) : Prop := w = 0#32 ∨ w = busyWord ∨ ∃ k : Fin 12, w = completedWord k

/-- The cells of a space are in canonical form and inside the space (20_memory.md R60). -/
def cellsInside {α : Type} (top : ℕ) (m : Memory α) : Prop := Memory.wf m = true ∧ ∀ c ∈ m, c.1 ≤ top

/-- What holds of every state a run reaches: `STATUS` has a legal value (10_state.md R23), a pending command
is one of the three (43_host_control.md R217), the written cells lie inside their spaces in canonical
form. -/
structure StateInv (s : State) : Prop where
  status : legalStatus s.status
  pending : s.busy = true → s.pend = 1#32 ∨ s.pend = 2#32 ∨ s.pend = 3#32
  msg : cellsInside Config.chip.msgTop.val s.msg
  smp : cellsInside Config.chip.sampTop.val s.smp

/-- The head of the inputs, if it is a host access, is one (log 13). -/
def headDecodes (s : State) : Prop :=
  ∀ f rest, s.inputs = .host f :: rest → ∃ i, decodeFrame f = .ok i

/-- Every host access still to come is one (log 13). -/
def inputsDecode (s : State) : Prop := ∀ f, Input.host f ∈ s.inputs → ∃ i, decodeFrame f = .ok i

/-- The two blocks hold the same register values, latch and cells: they differ at most in the model's own
fields. -/
def sameBlock {S : Type} (s t : Block S) : Prop :=
  t.status = s.status ∧ t.srate = s.srate ∧ t.wrate = s.wrate ∧ t.f0 = s.f0 ∧ t.f1 = s.f1 ∧ t.dur = s.dur ∧
    t.mlen = s.mlen ∧ t.slen = s.slen ∧ t.nbits = s.nbits ∧ t.spb = s.spb ∧ t.pend = s.pend ∧
    t.msg = s.msg ∧ t.smp = s.smp

/-- `P-NORM` (42_shared_numerics.md R197): every quotient by the largest absolute value denotes a real in
`[-1, 1]` with the sign of its dividend, one of them is 1 or -1, and the quotient of zero is 0. Over which `x` the
rule's sign clause ranges is left open there; here over the members of `w`. DESIGN CHOICE (log 20). -/
def PNorm {S : Type} (num : Num S) : Prop :=
  ∀ w : List S, num.isZero (num.absmax w) = false →
    (∀ x ∈ w, ∃ r : ℝ, num.real (num.div x (num.absmax w)) = some r ∧ -1 ≤ r ∧ r ≤ 1 ∧
      ∀ a : ℝ, num.real x = some a → SignType.sign r = SignType.sign a) ∧
    (∃ x ∈ w, num.real (num.div x (num.absmax w)) = some 1 ∨ num.real (num.div x (num.absmax w)) = some (-1)) ∧
    num.real (num.div num.zero (num.absmax w)) = some 0

/-- `P-PEAK` (42_shared_numerics.md R198): for every real `c > 0`, a segment of `L ≥ 3` samples that denote
`c * sin (2π k0 m / L)` as computed by `sin2pi` and `div` peaks at `k0` or `L - k0`. Computed means: `sin2pi` of the
phase, divided by an `M` that denotes `1 / c`, and the quotients are numbers. The phase of sample `m` is `k0 * m / L`
up to whole turns. DEDUCED (log 17). -/
def PPeak {S : Type} (num : Num S) : Prop :=
  ∀ (L k0 : ℕ) (c : ℝ) (M : S) (theta : ℕ → ℚ) (xs : List S), 3 ≤ L → 0 < k0 → 2 * k0 < L → 0 < c →
    num.real M = some (1 / c) → (∀ m < L, ∃ z : ℤ, theta m = (k0 : ℚ) * m / L + z) →
    xs = (List.range L).map (fun m => num.div (num.sin2pi (theta m)) M) → (∀ x ∈ xs, (num.real x).isSome = true) →
    num.peakBin xs = k0 ∨ num.peakBin xs = L - k0

/-- `P-ZERO` (42_shared_numerics.md R200): `sin2pi q` is `zero` exactly at the half-integers, elsewhere it is
not a zero. -/
def PZero {S : Type} (num : Num S) : Prop :=
  ∀ q : ℚ, ((∃ z : ℤ, 2 * q = z) → num.sin2pi q = num.zero) ∧
    ((¬ ∃ z : ℤ, 2 * q = z) → num.isZero (num.sin2pi q) = false)

/-- The discrete Fourier transform of a segment (41_decode.md R158). -/
noncomputable def dft (xs : List ℝ) (k : ℕ) : ℂ :=
  ∑ m ∈ Finset.range xs.length,
    (xs.getD m 0 : ℂ) * Complex.exp (-2 * Real.pi * Complex.I * k * m / xs.length)

/-- The least bin of largest magnitude (41_decode.md R158; 42_shared_numerics.md R195). -/
noncomputable def idealPeakBin (xs : List ℝ) : ℕ :=
  sInf {k | k < xs.length ∧ ∀ k' < xs.length, ‖dft xs k'‖ ≤ ‖dft xs k‖}

/-- `NUM_REAL`: exact real arithmetic, every field its ideal value (42_shared_numerics.md R190 to R195,
R201). -/
noncomputable def numReal : Num ℝ where
  zero := 0
  sin2pi q := Real.sin (2 * Real.pi * q)
  absmax xs := (xs.map fun x => |x|).foldr max 0
  isZero x := decide (x = 0)
  div x m := x / m
  peakBin := idealPeakBin
  real := some
  coding := none

end Sys2Proof.Machine
end

