-- ==== Sys2Proof/Certificates/Slice0/Obligations.lean ====
section
/-! DEFINITION. The statements for the provers: `Obligations.<Name> : Prop`, each named after what it says.
OBLIGATIONS.json gives each its rule. -/

open Sys2Proof Sys2Proof.Machine

/-! ## Reset -/

/-- 10_state.md R46: the state after reset holds the reset value of every register with one, and no MSG or
SMP cell holds a value. -/
def Obligations.ResetStateHoldsResetValues : Prop :=
  State.reset.status = 0#32 ∧ State.reset.srate = 44100#32 ∧ State.reset.wrate = 0#32 ∧
    State.reset.f0 = 440000#32 ∧ State.reset.f1 = 880000#32 ∧ State.reset.dur = 0#32 ∧
    State.reset.mlen = 0#32 ∧ State.reset.slen = 0#32 ∧ State.reset.nbits = 0#32 ∧ State.reset.spb = 0#32 ∧
    (∀ i, Memory.read State.reset.msg i = none) ∧ ∀ i, Memory.read State.reset.smp i = none

/-- 70_reset_and_hazards.md R260, R261: a reset, whatever was pending, puts every register at its reset
value, leaves no written cell and nothing pending. That the inputs still to come stay is the model's choice (log 16). -/
def Obligations.ResetEventRestoresResetValues : Prop :=
  ∀ (s : State) (rest : List Input), s.inputs = .reset :: rest →
    ∃ t, step s = .next t ∧ t.status = 0#32 ∧ t.srate = 44100#32 ∧ t.wrate = 0#32 ∧ t.f0 = 440000#32 ∧
      t.f1 = 880000#32 ∧ t.dur = 0#32 ∧ t.mlen = 0#32 ∧ t.slen = 0#32 ∧ t.nbits = 0#32 ∧ t.spb = 0#32 ∧
      (∀ i, Memory.read t.msg i = none) ∧ (∀ i, Memory.read t.smp i = none) ∧ t.busy = false ∧
      t.inputs = rest

/-- 70_reset_and_hazards.md R262: a command issued straight after reset ends in EMPTY_MESSAGE (`ENCD`,
`ENCX`) or RATE_MISMATCH (`DEC`), every register keeping its reset value. -/
def Obligations.FirstCommandAfterResetHasDefinedError : Prop :=
  step (State.reset.withFetchWord 32 1) = .next { State.reset with status := 0x00001106#32, pend := 1#32 } ∧
    step (State.reset.withFetchWord 32 2) = .next { State.reset with status := 0x00001106#32, pend := 2#32 } ∧
    step (State.reset.withFetchWord 32 3) = .next { State.reset with status := 0x00002006#32, pend := 3#32 }

/-! ## Encodings -/

/-- 30_encoding.md R92: the whole command word is compared; every other word is reserved. -/
def Obligations.CommandDecodingComparesWholeWord : Prop :=
  ∀ c : Word, (decodeCmd c = .encd ↔ c = 0x00000001#32) ∧ (decodeCmd c = .encx ↔ c = 0x00000002#32) ∧
    (decodeCmd c = .dec ↔ c = 0x00000003#32) ∧
    (c ≠ 0x00000001#32 → c ≠ 0x00000002#32 → c ≠ 0x00000003#32 → decodeCmd c = .reservedCmd c)

/-- Words of spec/opcode_table.json decode to the instructions they stand for (30_encoding.md R92). How the
access rows are laid out as words (four index bits, one sample bit, the first pattern bit highest, zero bits above) is
the model's choice (log 13). -/
def Obligations.TableWordsDecodeToTheirInstructions : Prop :=
  decodeTableWord 32 0x00000001 = some .encd ∧ decodeTableWord 32 0x00000002 = some .encx ∧
    decodeTableWord 32 0x00000003 = some .dec ∧ decodeTableWord 32 0x00000101 = some (.reservedCmd 0x101#32) ∧
    decodeTableWord 8 0b00000010 = some (.rdReg 2) ∧ decodeTableWord 8 0b00010011 = some (.rdMsg 3) ∧
    decodeTableWord 8 0b00101111 = some (.rdSmp 15) ∧ decodeTableWord 8 0b11000101 = some (.wrSmp 2 ⟨1, 1#1⟩) ∧
    decodeTableWord 16 0b0101001101111010 = some (.wrMsg 3 0x7A#8)

/-- Decoding the encoding of a well-formed instruction gives it back, under every bus binding, with every
operand at every value the encoding admits. The form of an access as bits is the model's (log 13). -/
def Obligations.DecodeOfEncodeIsIdentity : Prop :=
  ∀ (b : Binding) (i : Instr), i.wellFormed b = true → decode (encode b i) = .ok i

/-- An access has one encoding: bits that decode to an instruction are its encoding, and it is well
formed. The form of an access as bits is the model's (log 13). -/
def Obligations.AccessEncodingIsUnique : Prop :=
  ∀ (f : Frame) (i : Instr), decodeFrame f = .ok i → encode f.binding i = .access f ∧ i.wellFormed f.binding = true

/-! ## The step -/

/-- The host's turn runs the instruction its access decodes to. -/
def Obligations.HostTurnRunsDecodedAccess : Prop :=
  ∀ (s : State) (f : Frame) (rest : List Input) (i : Instr), s.inputs = .host f :: rest →
    decodeFrame f = .ok i → step s = exec i { s with inputs := rest }

/-- 43_host_control.md R218: the engine step is enabled when `BUSY = 1`, performs the command `PEND` holds, and leaves
`BUSY = 0` and `DONE = 1`. That with no input left the step comes at once, and that an engine turn while idle only uses
up its input, is the model's choice (log 15). -/
def Obligations.EngineStepPerformsPendingCommand : Prop :=
  (∀ (s : State) (i : Instr), s.busy = true →
      (s.pend = 1#32 ∧ i = .encd ∨ s.pend = 2#32 ∧ i = .encx ∨ s.pend = 3#32 ∧ i = .dec) →
      (s.inputs = [] → step s = exec i s) ∧
        (∀ rest, s.inputs = .engine :: rest → step s = exec i { s with inputs := rest }) ∧
        ∃ t, exec i s = .next t ∧ busyFlag t.status = false ∧ doneFlag t.status = true ∧
          t.pend = s.pend ∧ t.inputs = s.inputs) ∧
    ∀ (s : State) (rest : List Input), s.busy = false → s.inputs = .engine :: rest →
      step s = .next { s with inputs := rest }

/-- The command words placed next by `withFetchWord` are run by the very next step. -/
def Obligations.PlacedWordRunsNext : Prop :=
  ∀ s : State,
    step (s.withFetchWord 32 1) = exec .encd (s.onBlock (accept 1#32)) ∧
      step (s.withFetchWord 32 2) = exec .encx (s.onBlock (accept 2#32)) ∧
      step (s.withFetchWord 32 3) = exec .dec (s.onBlock (accept 3#32)) ∧
      ∀ c : Word, c ≠ 1#32 → c ≠ 2#32 → c ≠ 3#32 →
        step (s.withFetchWord 32 c.toNat) = exec (.reservedCmd c) s

/-- The invariant holds after reset. -/
def Obligations.StateInvHoldsAtReset : Prop := StateInv State.reset

/-- Every step keeps the invariant: a legal `STATUS`, a pending command that is one of the three, cells in
canonical form inside their spaces (10_state.md R23; 43_host_control.md R217; 20_memory.md R60). -/
def Obligations.EveryStepKeepsStateInv : Prop := ∀ s t : State, StateInv s → step s = .next t → StateInv t

/-- 43_host_control.md R222: what a step of the machine does to the block is a step of the relation over its
parameters, but for an engine turn while idle (no input left, or the engine's at the head), which changes nothing (log 15),
and the host's write of a sample word of another width, which is a `HostFault` (log 8). -/
def Obligations.EveryStepIsAStepOfTheRelation : Prop :=
  ∀ s t : State, step s = .next t →
    (∃ m : Move Sample, blockStep Config.chip m s.toBlock = some t.toBlock) ∨
      (s.busy = false ∧ (s.inputs = [] ∨ ∃ rest, s.inputs = .engine :: rest) ∧ t.toBlock = s.toBlock) ∨
      ∃ f rest i w, s.inputs = .host f :: rest ∧ decodeFrame f = .ok (.wrSmp i w) ∧ w.width ≠ Config.chipWidth ∧
        t.toBlock = s.toBlock.respond .hostFault

/-- From a state that meets the invariant a step neither faults nor refuses, whatever the host does. -/
def Obligations.StepFromStateInvAnswersNext : Prop :=
  ∀ s : State, StateInv s → headDecodes s → ∃ t, step s = .next t

/-- 70_reset_and_hazards.md R279, bounded by the inputs listed (log 15): a pending command has ended, or been
abandoned by a reset, after at most one step more than there are inputs. -/
def Obligations.PendingCommandEnds : Prop :=
  ∀ s : State, StateInv s → s.busy = true → inputsDecode s →
    ∃ k ≤ s.inputs.length + 1, ∃ t : State, Host.Core.run core k s = .next t ∧ t.busy = false

/-- 43_host_control.md R214, 20_memory.md R79: while a command is pending no host access changes a register,
the latch or a cell. -/
def Obligations.HostCannotChangeBlockWhileBusy : Prop :=
  ∀ (s : State) (f : Frame) (rest : List Input) (i : Instr), s.busy = true → s.inputs = .host f :: rest →
    decodeFrame f = .ok i → ∃ t, step s = .next t ∧ sameBlock s.toBlock t.toBlock ∧ t.inputs = rest

/-! ## Host reads -/

/-- 43_host_control.md R210: a read of a register while idle returns it and changes nothing; `CMD` reads 0, a number
above 10 is a `HostFault`. The reserved bits of `STATUS` read 0 (10_state.md R23, R34), so on every legal `STATUS`
the whole word is read. -/
def Obligations.IdleRegisterReadReturnsRegister : Prop :=
  ∀ s : State, s.busy = false →
    exec (.rdReg 0) s = .next { s with port := .word 0#32 } ∧
      exec (.rdReg 1) s = .next { s with port := .word (s.status &&& 0x0000FF07#32) } ∧
      (legalStatus s.status → exec (.rdReg 1) s = .next { s with port := .word s.status }) ∧
      exec (.rdReg 2) s = .next { s with port := .word s.srate } ∧
      exec (.rdReg 3) s = .next { s with port := .word s.wrate } ∧
      exec (.rdReg 4) s = .next { s with port := .word s.f0 } ∧
      exec (.rdReg 5) s = .next { s with port := .word s.f1 } ∧
      exec (.rdReg 6) s = .next { s with port := .word s.dur } ∧
      exec (.rdReg 7) s = .next { s with port := .word s.mlen } ∧
      exec (.rdReg 8) s = .next { s with port := .word s.slen } ∧
      exec (.rdReg 9) s = .next { s with port := .word s.nbits } ∧
      exec (.rdReg 10) s = .next { s with port := .word s.spb } ∧
      ∀ r, 10 < r → exec (.rdReg r) s = .next { s with port := .hostFault }

/-- 43_host_control.md R211: a read of a MSG or SMP cell while idle returns its value; a cell nothing has
written returns a free value (10_state.md R37). -/
def Obligations.IdleCellReadReturnsCell : Prop :=
  ∀ (s : State) (i : ℕ), s.busy = false →
    (i < Config.chip.msgMax →
        (∀ v, Memory.read s.msg i = some v → exec (.rdMsg i) s = .next { s with port := .byte v }) ∧
          (Memory.read s.msg i = none →
            exec (.rdMsg i) s =
              .next { s with port := .byte (Config.freeByte s.draws), draws := s.draws + 1 })) ∧
      (i < Config.chip.sampMax →
        (∀ x, Memory.read s.smp i = some x → exec (.rdSmp i) s = .next { s with port := .sample x }) ∧
          (Memory.read s.smp i = none →
            exec (.rdSmp i) s =
              .next { s with port := .sample (Config.freeSample s.draws), draws := s.draws + 1 })) ∧
      (Config.chip.msgMax ≤ i → exec (.rdMsg i) s = .next { s with port := .hostFault }) ∧
      (Config.chip.sampMax ≤ i → exec (.rdSmp i) s = .next { s with port := .hostFault })

/-- 43_host_control.md R212: reads while a command is pending; what the command may write reads as a free
value. -/
def Obligations.BusyReadReturnsParametersOrFreeValues : Prop :=
  ∀ s : State, s.busy = true →
    exec (.rdReg 1) s = .next { s with port := .word 0x00000001#32 } ∧
      exec (.rdReg 0) s = .next { s with port := .word 0#32 } ∧
      exec (.rdReg 2) s = .next { s with port := .word s.srate } ∧
      exec (.rdReg 4) s = .next { s with port := .word s.f0 } ∧
      exec (.rdReg 5) s = .next { s with port := .word s.f1 } ∧
      exec (.rdReg 6) s = .next { s with port := .word s.dur } ∧
      (∀ r, r = 3 ∨ r = 7 ∨ r = 8 ∨ r = 9 ∨ r = 10 →
        exec (.rdReg r) s = .next { s with port := .word (Config.freeWord s.draws), draws := s.draws + 1 }) ∧
      (∀ i, i < Config.chip.msgMax →
        exec (.rdMsg i) s = .next { s with port := .byte (Config.freeByte s.draws), draws := s.draws + 1 }) ∧
      ∀ i, i < Config.chip.sampMax →
        exec (.rdSmp i) s = .next { s with port := .sample (Config.freeSample s.draws), draws := s.draws + 1 }

/-- 20_memory.md R64: a read changes no state, ever: no register, latch or cell. -/
def Obligations.ReadChangesNoState : Prop :=
  ∀ (s : State) (k : ℕ) (i : Instr), i = .rdReg k ∨ i = .rdMsg k ∨ i = .rdSmp k →
    ∃ t, exec i s = .next t ∧ sameBlock s.toBlock t.toBlock ∧ t.inputs = s.inputs

/-- 20_memory.md R62: one width for every access of the machine. A word of another width is no whole cell and its write
a `HostFault` (R69, R82; the model's choice, log 8); a sample read crosses the bus as its word of that width. -/
def Obligations.SampleWordsHaveTheMachinesWidth : Prop :=
  (∀ (s : State) (i : ℕ) (w : CellWord), w.width ≠ Config.chipWidth →
      exec (.wrSmp i w) s = .next { s with port := .hostFault }) ∧
    (∀ (s : State) (i : ℕ) (x : BitVec Config.chipWidth),
      exec (.wrSmp i ⟨Config.chipWidth, x⟩) s =
        .next (s.onBlock (memWrite Config.chip .smp i (storeSmp i (Config.chipDec x))))) ∧
    ∀ x : Sample, wordOfSample Config.chip.num x = some ⟨Config.chipWidth, Config.chipEnc x⟩

/-- 20_memory.md R66: an access outside its space is a `HostFault` and changes no state, busy or idle. -/
def Obligations.AccessOutsideSpaceIsHostFault : Prop :=
  ∀ (s : State) (i : ℕ) (v : Word) (b : Byte) (x : CellWord),
    (10 < i → exec (.rdReg i) s = .next { s with port := .hostFault } ∧
        exec (.wrReg i v) s = .next { s with port := .hostFault }) ∧
      (Config.chip.msgMax ≤ i → exec (.rdMsg i) s = .next { s with port := .hostFault } ∧
        exec (.wrMsg i b) s = .next { s with port := .hostFault }) ∧
      (Config.chip.sampMax ≤ i → exec (.rdSmp i) s = .next { s with port := .hostFault } ∧
        exec (.wrSmp i x) s = .next { s with port := .hostFault })

/-! ## Host writes -/

/-- 43_host_control.md R213: a write of a register while idle; register 0 is `CMD` (R215). -/
def Obligations.IdleRegisterWriteStores : Prop :=
  ∀ (s : State) (v : Word), s.busy = false →
    exec (.wrReg 1 v) s = .next { s with port := .ok } ∧
      exec (.wrReg 9 v) s = .next { s with port := .ok } ∧
      exec (.wrReg 10 v) s = .next { s with port := .ok } ∧
      exec (.wrReg 2 v) s = .next { s with srate := v, port := .ok } ∧
      exec (.wrReg 3 v) s = .next { s with wrate := v, port := .ok } ∧
      exec (.wrReg 4 v) s = .next { s with f0 := v, port := .ok } ∧
      exec (.wrReg 5 v) s = .next { s with f1 := v, port := .ok } ∧
      exec (.wrReg 6 v) s = .next { s with dur := v, port := .ok } ∧
      exec (.wrReg 7 v) s = .next { s with mlen := v, port := .ok } ∧
      exec (.wrReg 8 v) s = .next { s with slen := v, port := .ok } ∧
      exec (.wrReg 0 v) s = exec (.wrCmd v) s ∧
      ∀ r, 10 < r → exec (.wrReg r v) s = .next { s with port := .hostFault }

/-- 43_host_control.md R215: a write to `CMD` while idle accepts one of the three commands, or posts
UsageError for a reserved word, and changes nothing else. -/
def Obligations.CommandWriteDispatches : Prop :=
  ∀ (s : State) (c : Word), s.busy = false →
    (c = 0x00000001#32 ∨ c = 0x00000002#32 ∨ c = 0x00000003#32 →
        exec (.wrCmd c) s = .next { s with pend := c, status := 0x00000001#32, port := .ok }) ∧
      (c ≠ 0x00000001#32 → c ≠ 0x00000002#32 → c ≠ 0x00000003#32 →
        exec (.wrCmd c) s = .next { s with status := 0x00004006#32, port := .ok })

/-- 30_encoding.md R94: every other command word is reserved; written to `CMD` while idle it starts nothing and posts
a UsageError, `BUSY` staying 0; `RESERVED_CMD` is that write, busy or idle. -/
def Obligations.ReservedCommandPostsUsageError : Prop :=
  ∀ (s : State) (c : Word), c ≠ 0x00000001#32 → c ≠ 0x00000002#32 → c ≠ 0x00000003#32 →
    decodeCmd c = .reservedCmd c ∧
      (s.busy = false →
        exec (.reservedCmd c) s = .next { s with status := 0x00004006#32, port := .ok } ∧
          exec (.wrCmd c) s = .next { s with status := 0x00004006#32, port := .ok }) ∧
      exec (.reservedCmd c) s = exec (.wrCmd c) s

/-- 43_host_control.md R216: a write of a MSG or SMP cell while idle stores the value there, leaves every
other cell, and changes no register. A sample comes as a word of the machine's width, and the cell takes the word's value
(20_memory.md R62). -/
def Obligations.IdleCellWriteStores : Prop :=
  ∀ (s : State) (i : ℕ) (v : Byte) (x : BitVec Config.chipWidth), s.busy = false →
    (i < Config.chip.msgMax →
        ∃ m, exec (.wrMsg i v) s = .next { s with msg := m, port := .ok } ∧ Memory.read m i = some v ∧
          ∀ j, j ≠ i → Memory.read m j = Memory.read s.msg j) ∧
      (i < Config.chip.sampMax →
        ∃ m, exec (.wrSmp i ⟨Config.chipWidth, x⟩) s = .next { s with smp := m, port := .ok } ∧
          Memory.read m i = some (Config.chipDec x) ∧ ∀ j, j ≠ i → Memory.read m j = Memory.read s.smp j) ∧
      (Config.chip.msgMax ≤ i → exec (.wrMsg i v) s = .next { s with port := .hostFault }) ∧
      (Config.chip.sampMax ≤ i → exec (.wrSmp i ⟨Config.chipWidth, x⟩) s = .next { s with port := .hostFault })

/-- 43_host_control.md R214: every host write while a command is pending is dropped and answers `ok`, or
`HostFault` outside the range. -/
def Obligations.WritesAreDroppedWhileBusy : Prop :=
  ∀ (s : State) (i : ℕ) (v c : Word) (b : Byte) (x : BitVec Config.chipWidth), s.busy = true →
    exec (.wrCmd c) s = .next { s with port := .ok } ∧
      exec (.reservedCmd c) s = .next { s with port := .ok } ∧
      exec (.wrReg i v) s = .next { s with port := if i ≤ 10 then .ok else .hostFault } ∧
      exec (.wrMsg i b) s = .next { s with port := if i < Config.chip.msgMax then .ok else .hostFault } ∧
      exec (.wrSmp i ⟨Config.chipWidth, x⟩) s =
        .next { s with port := if i < Config.chip.sampMax then .ok else .hostFault }

/-- 20_memory.md R61: a write to one space changes no cell of another, in any state. -/
def Obligations.SpacesAreDisjoint : Prop :=
  ∀ (s : State) (i : ℕ) (v c : Word) (b : Byte) (x : CellWord),
    (∃ t, exec (.wrReg i v) s = .next t ∧ t.msg = s.msg ∧ t.smp = s.smp) ∧
      (∃ t, exec (.wrCmd c) s = .next t ∧ t.msg = s.msg ∧ t.smp = s.smp) ∧
      (∃ t, exec (.wrMsg i b) s = .next t ∧ t.smp = s.smp ∧ ∀ r, t.toBlock.readReg r = s.toBlock.readReg r) ∧
      ∃ t, exec (.wrSmp i x) s = .next t ∧ t.msg = s.msg ∧ ∀ r, t.toBlock.readReg r = s.toBlock.readReg r

/-! ## Errors -/

/-- 60_exceptions.md R231: the status word of every error, with its flags and code. -/
def Obligations.ErrorWordsAreTheTables : Prop :=
  errorWord .emptyMessage = 0x00001106#32 ∧ errorWord .sampleRate = 0x00001206#32 ∧
    errorWord .f0 = 0x00001306#32 ∧ errorWord .f1 = 0x00001406#32 ∧ errorWord .duration = 0x00001506#32 ∧
    errorWord .rateTooLow = 0x00001606#32 ∧ errorWord .rateMismatch = 0x00002006#32 ∧
    errorWord .degenerateSignal = 0x00003006#32 ∧ errorWord .usage = 0x00004006#32 ∧
    errorWord .capMessage = 0x00005106#32 ∧ errorWord .capSamples = 0x00005206#32 ∧
    ∀ e, busyFlag (errorWord e) = false ∧ doneFlag (errorWord e) = true ∧ errFlag (errorWord e) = true ∧
      (ecodeField (errorWord e)).toNat = errorCode e

/-- 60_exceptions.md R243, the checks of `ENCD` and `ENCX` before the tone generator, for every implementation
and so for the machine's: the first failing check decides the status, and nothing but `STATUS` changes. -/
def Obligations.EncodeReportsFirstFailingCheck : Prop :=
  (∀ s : State, exec .encd s = .next (s.onBlock (encodeStep Config.chip .derived)) ∧
      exec .encx s = .next (s.onBlock (encodeStep Config.chip .explicit))) ∧
    ∀ (S : Type) (cfg : Config S) (s : Block S),
      (s.mlen = 0#32 → encodeStep cfg .derived s = { s with status := 0x00001106#32 } ∧
          encodeStep cfg .explicit s = { s with status := 0x00001106#32 }) ∧
        (s.mlen ≠ 0#32 → s.srate.toInt ≤ 0 → encodeStep cfg .derived s = { s with status := 0x00001206#32 } ∧
          encodeStep cfg .explicit s = { s with status := 0x00001206#32 }) ∧
        (s.mlen ≠ 0#32 → 0 < s.srate.toInt →
          (s.f0.toInt ≤ 0 → encodeStep cfg .derived s = { s with status := 0x00001306#32 } ∧
              encodeStep cfg .explicit s = { s with status := 0x00001306#32 }) ∧
            (0 < s.f0.toInt → s.f1.toInt ≤ 0 → encodeStep cfg .derived s = { s with status := 0x00001406#32 } ∧
              encodeStep cfg .explicit s = { s with status := 0x00001406#32 }) ∧
            (0 < s.f0.toInt → 0 < s.f1.toInt →
              (s.dur.toInt ≤ 0 → encodeStep cfg .explicit s = { s with status := 0x00001506#32 }) ∧
                (cfg.msgMax < s.mlen.toNat →
                  encodeStep cfg .derived s = { s with status := 0x00005106#32 } ∧
                    (0 < s.dur.toInt → encodeStep cfg .explicit s = { s with status := 0x00005106#32 })) ∧
                (s.mlen.toNat ≤ cfg.msgMax →
                  (cfg.sampMax < rhe ((8 * s.mlen.toNat : ℕ) / 10 * (s.srate.toInt : ℚ)) →
                      encodeStep cfg .derived s = { s with status := 0x00005206#32 }) ∧
                    (0 < s.dur.toInt →
                      cfg.sampMax < rhe ((s.dur.toInt : ℚ) / 1000 * (s.srate.toInt : ℚ)) →
                      encodeStep cfg .explicit s = { s with status := 0x00005206#32 }))))

/-- 60_exceptions.md R243, the checks of `DEC`, for every implementation and so for the machine's: the first
failing check decides the status, and nothing but `STATUS` changes. -/
def Obligations.DecodeReportsFirstFailingCheck : Prop :=
  (∀ s : State, exec .dec s = .next (s.onBlock (decodeStep Config.chip))) ∧
    ∀ (S : Type) [Inhabited S] (cfg : Config S) (s : Block S),
      (s.srate.toInt ≤ 0 → decodeStep cfg s = { s with status := 0x00001206#32 }) ∧
        (0 < s.srate.toInt → s.srate.toInt < 10 → decodeStep cfg s = { s with status := 0x00001606#32 }) ∧
        (10 ≤ s.srate.toInt →
          (s.f0.toInt ≤ 0 → decodeStep cfg s = { s with status := 0x00001306#32 }) ∧
            (0 < s.f0.toInt → s.f1.toInt ≤ 0 → decodeStep cfg s = { s with status := 0x00001406#32 }) ∧
            (0 < s.f0.toInt → 0 < s.f1.toInt →
              (cfg.sampMax < s.slen.toNat → decodeStep cfg s = { s with status := 0x00005206#32 }) ∧
                (s.slen.toNat ≤ cfg.sampMax →
                  (s.wrate.toInt ≠ s.srate.toInt → decodeStep cfg s = { s with status := 0x00002006#32 }) ∧
                    (s.wrate.toInt = s.srate.toInt →
                      cfg.msgMax < s.slen.toNat / (s.srate.toInt.toNat / 10) / 8 →
                      decodeStep cfg s = { s with status := 0x00005106#32 }))))

/-- 60_exceptions.md R240: a command that ends in an error changes nothing but `STATUS` (and, in the model,
the count of free values used), which reports it. For a decode of a non-number nothing is promised
(93_implementation_defined.md U4). -/
def Obligations.ErrorChangesOnlyStatus : Prop :=
  ∀ (s : State) (i : Instr), i = .encd ∨ i = .encx ∨ i = .dec →
    ∃ t, exec i s = .next t ∧
      (errFlag t.status = true → (i = .dec → allNumbers Config.chip.num (decodeSamples s.toBlock) = true) →
        t = { s with status := t.status, draws := t.draws } ∧ ∃ e, t.status = errorWord e)

/-- 40_encode.md R120, R121: with fewer samples than bits no window exists and the encode ends in
DegenerateSignal. DEDUCED (log 10): the model fixes this for every numerics record. -/
def Obligations.EncodeWithoutWindowsIsDegenerate : Prop :=
  ∀ (s : State) (v : DurationRule) (i : Instr), v = .derived ∧ i = .encd ∨ v = .explicit ∧ i = .encx →
    encodeCheck Config.chip v s.toBlock = none → encodeTotal v s.toBlock < 8 * s.mlen.toNat →
    exec i s = .next { s with status := 0x00003006#32, draws := s.draws + s.mlen.toNat }

/-! ## Encode -/

/-- 40_encode.md R120, R131, for every implementation and so for the machine's: past its checks `ENCD`
synthesizes `T = rhe(B/10 * sr)` samples and either ends in DegenerateSignal, changing nothing but `STATUS`, or
commits the normalized waveform, `SLEN`, `WRATE`, `NBITS`, `SPB` and `STATUS`, and nothing else. That `spb = 0` is
degenerate for every numerics record is DEDUCED (log 10), and that the tail is divided as well (log 21). -/
def Obligations.EncdSynthesizesAndCommits : Prop :=
  (∀ s : State, exec .encd s = .next (s.onBlock (encodeStep Config.chip .derived))) ∧
    ∀ (S : Type) (cfg : Config S) (s : Block S) (len B T spb : ℕ) (D : ℚ) (bits : List Bool) (w : List S),
      len = s.mlen.toNat → B = 8 * len → D = (B : ℚ) / 10 → T = rhe (D * (s.srate.toInt : ℚ)) → spb = T / B →
      bits = serialize (messageBytes s len) →
      w = (List.range T).map (fun n =>
        if n < B * spb then
          cfg.num.sin2pi
            ((if bits.getD (n / spb) false then (s.f1.toInt : ℚ) / 1000 else (s.f0.toInt : ℚ) / 1000) * n * D / T)
        else cfg.num.zero) →
      s.mlen ≠ 0#32 → 0 < s.srate.toInt → 0 < s.f0.toInt → 0 < s.f1.toInt → len ≤ cfg.msgMax →
      T ≤ cfg.sampMax →
      encodeStep cfg .derived s =
        if spb = 0 ∨ cfg.num.isZero (cfg.num.absmax w) = true then
          { s with status := 0x00003006#32, draws := s.draws + len }
        else
          { s with
            smp := Memory.writePrefix s.smp (w.map fun x => cfg.num.div x (cfg.num.absmax w))
            slen := BitVec.ofNat 32 T
            wrate := s.srate
            nbits := BitVec.ofNat 32 B
            spb := BitVec.ofNat 32 spb
            status := 0x00000002#32
            draws := s.draws + len }

/-- 40_encode.md R121, R131, for every implementation and so for the machine's: as `ENCD`, with the duration
`DUR / 1000` seconds. That `spb = 0` is degenerate for every numerics record is DEDUCED (log 10), and that the tail is
divided as well (log 21). -/
def Obligations.EncxSynthesizesAndCommits : Prop :=
  (∀ s : State, exec .encx s = .next (s.onBlock (encodeStep Config.chip .explicit))) ∧
    ∀ (S : Type) (cfg : Config S) (s : Block S) (len B T spb : ℕ) (D : ℚ) (bits : List Bool) (w : List S),
      len = s.mlen.toNat → B = 8 * len → D = (s.dur.toInt : ℚ) / 1000 → T = rhe (D * (s.srate.toInt : ℚ)) → spb = T / B →
      bits = serialize (messageBytes s len) →
      w = (List.range T).map (fun n =>
        if n < B * spb then
          cfg.num.sin2pi
            ((if bits.getD (n / spb) false then (s.f1.toInt : ℚ) / 1000 else (s.f0.toInt : ℚ) / 1000) * n * D / T)
        else cfg.num.zero) →
      s.mlen ≠ 0#32 → 0 < s.srate.toInt → 0 < s.f0.toInt → 0 < s.f1.toInt → 0 < s.dur.toInt → len ≤ cfg.msgMax →
      T ≤ cfg.sampMax →
      encodeStep cfg .explicit s =
        if spb = 0 ∨ cfg.num.isZero (cfg.num.absmax w) = true then
          { s with status := 0x00003006#32, draws := s.draws + len }
        else
          { s with
            smp := Memory.writePrefix s.smp (w.map fun x => cfg.num.div x (cfg.num.absmax w))
            slen := BitVec.ofNat 32 T
            wrate := s.srate
            nbits := BitVec.ofNat 32 B
            spb := BitVec.ofNat 32 spb
            status := 0x00000002#32
            draws := s.draws + len }

/-- The frame of `ENCD` and `ENCX` (40_encode.md R131, 20_memory.md R74): the parameter registers, `MLEN`, the
latch, every MSG cell and the SMP cells from `T` on keep their values, and unless the command succeeds so
do `SLEN`, `WRATE`, `NBITS`, `SPB` and every SMP cell. -/
def Obligations.EncodeFrame : Prop :=
  ∀ (s : State) (v : DurationRule) (i : Instr), v = .derived ∧ i = .encd ∨ v = .explicit ∧ i = .encx →
    ∃ t, exec i s = .next t ∧ t.srate = s.srate ∧ t.f0 = s.f0 ∧ t.f1 = s.f1 ∧ t.dur = s.dur ∧
      t.mlen = s.mlen ∧ t.pend = s.pend ∧ t.port = s.port ∧ t.inputs = s.inputs ∧
      (∀ c, Memory.read t.msg c = Memory.read s.msg c) ∧
      (∀ n, encodeTotal v s.toBlock ≤ n → Memory.read t.smp n = Memory.read s.smp n) ∧
      (t.status ≠ 0x00000002#32 → t.slen = s.slen ∧ t.wrate = s.wrate ∧ t.nbits = s.nbits ∧ t.spb = s.spb ∧
        ∀ n, Memory.read t.smp n = Memory.read s.smp n)

/-- 40_encode.md R124: `T` of an `ENCD` never meets a tie; it is `B * sr / 10` rounded to the nearest
integer, and exactly that when `B * sr` is a multiple of 10. -/
def Obligations.EncdTotalIsNearestInteger : Prop :=
  ∀ (S : Type) (s : Block S), 0 < s.srate.toInt →
    encodeTotal .derived s = (8 * s.mlen.toNat * s.srate.toInt.toNat + 5) / 10 ∧
      8 * s.mlen.toNat * s.srate.toInt.toNat % 10 ≠ 5 ∧
      (8 * s.mlen.toNat * s.srate.toInt.toNat % 10 = 0 →
        10 * encodeTotal .derived s = 8 * s.mlen.toNat * s.srate.toInt.toNat)

/-- 40_encode.md R134: with `sr = 10 * k` an `ENCD` has `k` samples per bit, no tail, and the phase of sample
`n` is `tone * n / sr`. -/
def Obligations.EncdClosedFormAtMultiplesOfTen : Prop :=
  ∀ (S : Type) (s : Block S) (k : ℕ), s.mlen ≠ 0#32 → 0 < k → s.srate.toInt = 10 * (k : ℤ) →
    encodeTotal .derived s = 8 * s.mlen.toNat * k ∧ encodeSpb .derived s = k ∧
      ∀ (f : ℚ) (n : ℕ),
        phase f (encodeDuration .derived s) (encodeTotal .derived s) n = f * n / (10 * k)

/-- 42_shared_numerics.md R184: `rhe q` is the nearest integer, and the even one of two nearest. -/
def Obligations.RheIsNearestTiesToEven : Prop :=
  ∀ (q : ℚ) (n : ℕ), 0 ≤ q →
    (rhe q = n ↔ |(n : ℚ) - q| < 1 / 2 ∨ |(n : ℚ) - q| = 1 / 2 ∧ Even n)

/-- 30_encoding.md R99: the bitstream has `8 * len` bits and `bits[8c + p] = MSG[c][7 - p]`. -/
def Obligations.SerializerOrder : Prop :=
  ∀ bytes : List Byte, (serialize bytes).length = 8 * bytes.length ∧
    ∀ (c p : ℕ) (b : Byte), bytes[c]? = some b → p < 8 →
      (serialize bytes)[8 * c + p]? = some (b.getLsbD (7 - p))

/-- 40_encode.md R127, R128: the samples of the windows are the tones at the absolute time axis, every other
sample is zero. -/
def Obligations.ToneGeneratorFillsWindows : Prop :=
  ∀ (S : Type) (num : Num S) (bits : List Bool) (T spb : ℕ) (D f0 f1 : ℚ), bits.length * spb ≤ T →
    (waveform num bits T spb D f0 f1).length = T ∧
      (∀ (i m : ℕ) (b : Bool), bits[i]? = some b → m < spb →
        (waveform num bits T spb D f0 f1)[i * spb + m]? =
          some (num.sin2pi ((if b then f1 else f0) * (i * spb + m : ℕ) * D / T))) ∧
      ∀ n, bits.length * spb ≤ n → n < T → (waveform num bits T spb D f0 f1)[n]? = some num.zero

/-- 40_encode.md R129, 10_state.md R36, under `P-NORM` (formal reading: log 17, log 20): after a successful encode
every written sample denotes a real in `[-1, 1]` and one of them is 1 or -1; the `T mod B` tail samples denote 0, and are `NUM.zero` itself where
dividing it gives it back (30_encoding.md R101; log 21). -/
def Obligations.NormalizedWaveformPeaksAtOne : Prop :=
  ∀ (S : Type) (cfg : Config S) (v : DurationRule) (s t : Block S), PNorm cfg.num → encodeCheck cfg v s = none →
    t = encodeStep cfg v s → t.status = 0x00000002#32 →
    (∀ n < t.slen.toNat, ∃ x r, Memory.read t.smp n = some x ∧ cfg.num.real x = some r ∧ -1 ≤ r ∧ r ≤ 1) ∧
      (∃ n < t.slen.toNat, ∃ x, Memory.read t.smp n = some x ∧
        (cfg.num.real x = some 1 ∨ cfg.num.real x = some (-1))) ∧
      encodeBits s * encodeSpb v s + encodeTotal v s % encodeBits s = t.slen.toNat ∧
      ∀ n, encodeBits s * encodeSpb v s ≤ n → n < t.slen.toNat →
        ∃ x, Memory.read t.smp n = some x ∧ cfg.num.real x = some 0 ∧
          (cfg.num.div cfg.num.zero (cfg.num.absmax (encodeWave cfg v s)) = cfg.num.zero → x = cfg.num.zero)

/-- 10_state.md R38, for every implementation and so for the machine's: the counts a successful command stores are
the rule's numbers, unwrapped, within the bounds the rule gives. -/
def Obligations.CountsFitTheirRegisters : Prop :=
  (∀ s : State, exec .encd s = .next (s.onBlock (encodeStep Config.chip .derived)) ∧
      exec .encx s = .next (s.onBlock (encodeStep Config.chip .explicit)) ∧
      exec .dec s = .next (s.onBlock (decodeStep Config.chip))) ∧
    (∀ (S : Type) (cfg : Config S) (s t : Block S) (v : DurationRule), encodeCheck cfg v s = none →
      t = encodeStep cfg v s → t.status = 0x00000002#32 →
      t.slen.toNat = encodeTotal v s ∧ t.nbits.toNat = 8 * s.mlen.toNat ∧
        t.spb.toNat = encodeTotal v s / (8 * s.mlen.toNat) ∧ t.slen.toNat ≤ cfg.sampMax ∧
        t.nbits.toNat ≤ 8 * cfg.msgMax ∧ t.spb.toNat ≤ t.slen.toNat) ∧
    ∀ (S : Type) [Inhabited S] (cfg : Config S) (s t : Block S), decodeCheck cfg s = none →
      allNumbers cfg.num (decodeSamples s) = true → t = decodeStep cfg s →
      t.status = 0x00000002#32 ∧ t.nbits.toNat = decodeCount s ∧ t.spb.toNat = decodeSpb s ∧
        t.mlen.toNat = decodeCount s / 8 ∧ t.nbits.toNat ≤ t.slen.toNat ∧ t.slen.toNat ≤ cfg.sampMax ∧
        t.spb.toNat ≤ t.slen.toNat ∧ t.mlen.toNat ≤ cfg.msgMax

/-- 40_encode.md R132, for every implementation and so for the machine's: the outcome of an encode is a function
of `SRATE`, `F0`, `F1`, `MLEN`, the message, `DUR` for `ENCX`, and the implementation's parameters, and of
nothing else. -/
def Obligations.EncodeDependsOnlyOnItsOperands : Prop :=
  (∀ s : State, exec .encd s = .next (s.onBlock (encodeStep Config.chip .derived)) ∧
      exec .encx s = .next (s.onBlock (encodeStep Config.chip .explicit))) ∧
    ∀ (S : Type) (cfg : Config S) (s s' t t' : Block S) (v : DurationRule),
      s.srate = s'.srate → s.f0 = s'.f0 → s.f1 = s'.f1 → s.mlen = s'.mlen → (v = .explicit → s.dur = s'.dur) →
      (∀ c < s.mlen.toNat, ∃ b, Memory.read s.msg c = some b ∧ Memory.read s'.msg c = some b) →
      t = encodeStep cfg v s → t' = encodeStep cfg v s' →
      t.status = t'.status ∧
        (t.status = 0x00000002#32 → t.slen = t'.slen ∧ t.wrate = t'.wrate ∧ t.nbits = t'.nbits ∧
          t.spb = t'.spb ∧ ∀ n < t.slen.toNat, Memory.read t.smp n = Memory.read t'.smp n)

/-! ## Decode -/

/-- 41_decode.md R150, R163, for every implementation and so for the machine's: past its checks `DEC` completes;
where every sample it reads is a number it commits the decoded bytes, `MLEN`, `NBITS`, `SPB` and `STATUS`, and
nothing else. That the peak bin is taken modulo the segment length is the model's reading of R195 (log 11). -/
def Obligations.DecClassifiesAndCommits : Prop :=
  (∀ s : State, exec .dec s = .next (s.onBlock (decodeStep Config.chip))) ∧
    ∀ (S : Type) [Inhabited S] (cfg : Config S) (s : Block S) (N d B spb : ℕ) (xs : List S) (bits : List Bool),
      N = s.slen.toNat → d = s.srate.toInt.toNat / 10 → B = N / d → spb = (if B = 0 then 0 else N / B) →
      xs = sampleValues s (B * spb) →
      bits = (List.range B).map (fun j =>
        let k := cfg.num.peakBin ((xs.drop (j * spb)).take spb) % spb
        let peak : ℚ := (min k (spb - k) : ℕ) * (s.srate.toInt : ℚ) / spb
        if |peak - (s.f0.toInt : ℚ) / 1000| < |peak - (s.f1.toInt : ℚ) / 1000| then false else true) →
      10 ≤ s.srate.toInt → 0 < s.f0.toInt → 0 < s.f1.toInt → N ≤ cfg.sampMax →
      s.wrate.toInt = s.srate.toInt → B / 8 ≤ cfg.msgMax →
      busyFlag (decodeStep cfg s).status = false ∧ doneFlag (decodeStep cfg s).status = true ∧
        ((∀ x ∈ xs, (cfg.num.real x).isSome = true) →
          decodeStep cfg s = { s with
            msg := Memory.writePrefix s.msg ((List.range (B / 8)).map (byteOfBits bits))
            mlen := BitVec.ofNat 32 (B / 8)
            nbits := BitVec.ofNat 32 B
            spb := BitVec.ofNat 32 spb
            status := 0x00000002#32
            draws := s.draws + B * spb })

/-- 41_decode.md R156: fewer samples than one bit takes give the empty message and success. -/
def Obligations.ShortDecodeGivesEmptyMessage : Prop :=
  ∀ s : State, 10 ≤ s.srate.toInt → 0 < s.f0.toInt → 0 < s.f1.toInt →
    s.slen.toNat ≤ Config.chip.sampMax → s.wrate.toInt = s.srate.toInt →
    s.slen.toNat < s.srate.toInt.toNat / 10 →
    exec .dec s = .next { s with mlen := 0#32, nbits := 0#32, spb := 0#32, status := 0x00000002#32 }

/-- The frame of `DEC` (41_decode.md R163, 20_memory.md R74): the parameter registers, `WRATE`, `SLEN`, the
latch, every SMP cell and the MSG cells from `B div 8` on keep their values. -/
def Obligations.DecodeFrame : Prop :=
  ∀ s : State, ∃ t, exec .dec s = .next t ∧ t.srate = s.srate ∧ t.wrate = s.wrate ∧ t.f0 = s.f0 ∧
    t.f1 = s.f1 ∧ t.dur = s.dur ∧ t.slen = s.slen ∧ t.pend = s.pend ∧ t.port = s.port ∧
    t.inputs = s.inputs ∧ (∀ n, Memory.read t.smp n = Memory.read s.smp n) ∧
    ∀ c, decodeCount s.toBlock / 8 ≤ c → Memory.read t.msg c = Memory.read s.msg c

/-- 41_decode.md R166: exactly `B` whole segments fit the samples, fewer than `spb` samples are left over, and
a segment is at least `sr div 10` samples long (R156). -/
def Obligations.WholeSegmentsAreTheBitCount : Prop :=
  ∀ (S : Type) (s : Block S), 10 ≤ s.srate.toInt → 1 ≤ decodeCount s →
    s.slen.toNat / decodeSpb s = decodeCount s ∧
      s.slen.toNat - decodeCount s * decodeSpb s < decodeSpb s ∧ decodeUnit s ≤ decodeSpb s

/-- 41_decode.md R161, R100: the deserializer inverts the serializer and drops a trailing group shorter than
eight bits. -/
def Obligations.DeserializerInvertsSerializer : Prop :=
  ∀ (bytes : List Byte) (tail : List Bool), tail.length < 8 → deserialize (serialize bytes ++ tail) = bytes

/-- 60_exceptions.md R246: with equal tones every bit decodes to 1. -/
def Obligations.EqualTonesDecodeToOnes : Prop :=
  ∀ (S : Type) [Inhabited S] (cfg : Config S) (s : Block S), s.f0 = s.f1 →
    decodeBytes cfg s = List.replicate (decodeCount s / 8) 0xFF#8

/-- 41_decode.md R167, under `NUM_REAL`: a silent segment has all magnitudes 0, a constant one has its only nonzero
bin at 0; both have peak bin 0 and decode to 0 when `f0 < f1` and to 1 otherwise. -/
def Obligations.ConstantSegmentsClassifyByToneOrder : Prop :=
  ∀ (c : ℝ) (B L : ℕ) (sr f0 f1 : ℚ), 0 < L → 0 < f0 → 0 < f1 →
    (∀ k < L, ‖dft (List.replicate L 0) k‖ = 0) ∧
      (∀ k < L, c ≠ 0 → (‖dft (List.replicate L c) k‖ ≠ 0 ↔ k = 0)) ∧
      numReal.peakBin (List.replicate L c) = 0 ∧
      decodeBits numReal (List.replicate (B * L) c) B L sr f0 f1 = List.replicate B (decide (f1 ≤ f0))

/-- 41_decode.md R165, for every implementation and so for the machine's: the outcome of a decode of numbers is a
function of `SRATE`, `WRATE`, `F0`, `F1`, `SLEN`, the samples and the implementation's parameters, and of
nothing else. -/
def Obligations.DecodeDependsOnlyOnItsOperands : Prop :=
  (∀ s : State, exec .dec s = .next (s.onBlock (decodeStep Config.chip))) ∧
    ∀ (S : Type) [Inhabited S] (cfg : Config S) (s s' t t' : Block S), s.srate = s'.srate →
      s.wrate = s'.wrate → s.f0 = s'.f0 → s.f1 = s'.f1 → s.slen = s'.slen →
      (∀ n < decodeCount s * decodeSpb s, ∃ x, Memory.read s.smp n = some x ∧ Memory.read s'.smp n = some x ∧
        (cfg.num.real x).isSome = true) →
      t = decodeStep cfg s → t' = decodeStep cfg s' →
      t.status = t'.status ∧
        (t.status = 0x00000002#32 → t.mlen = t'.mlen ∧ t.nbits = t'.nbits ∧ t.spb = t'.spb ∧
          ∀ c < t.mlen.toNat, Memory.read t.msg c = Memory.read t'.msg c)

/-! ## Whole-machine rules -/

/-- 10_state.md R21, R45: a parameter register changes only by a host write of that register. -/
def Obligations.OnlyHostWritesChangeParameters : Prop :=
  ∀ (s t : State) (i : Instr), exec i s = .next t →
    (t.srate ≠ s.srate → ∃ v, i = .wrReg 2 v) ∧ (t.f0 ≠ s.f0 → ∃ v, i = .wrReg 4 v) ∧
      (t.f1 ≠ s.f1 → ∃ v, i = .wrReg 5 v) ∧ (t.dur ≠ s.dur → ∃ v, i = .wrReg 6 v)

/-- 10_state.md R21, R31, R32: the read-only results change only by a command. -/
def Obligations.OnlyCommandsChangeResults : Prop :=
  ∀ (s t : State) (i : Instr), exec i s = .next t → t.nbits ≠ s.nbits ∨ t.spb ≠ s.spb →
    i = .encd ∨ i = .encx ∨ i = .dec

/-- 10_state.md R39: `PEND` is written at the acceptance of a command and nowhere else. -/
def Obligations.OnlyAcceptanceWritesPend : Prop :=
  ∀ (s t : State) (i : Instr), exec i s = .next t → t.pend ≠ s.pend →
    ∃ c : Word, (i = .wrCmd c ∨ i = .wrReg 0 c) ∧ s.busy = false ∧ (c = 1#32 ∨ c = 2#32 ∨ c = 3#32) ∧
      t.pend = c ∧ t.status = 0x00000001#32

/-! ## Numerics and the round trip -/

/-- 42_shared_numerics.md R200, R191: `NUM_REAL` has `P-ZERO`. -/
def Obligations.NumRealHasPZero : Prop := PZero numReal

/-- 42_shared_numerics.md R197: `NUM_REAL` has `P-NORM` (formal reading: log 17, log 20), and there a quotient has the
sign of its dividend whichever the dividend is, in the list or not. -/
def Obligations.NumRealHasPNorm : Prop :=
  PNorm numReal ∧
    ∀ (w : List ℝ) (x r : ℝ), numReal.isZero (numReal.absmax w) = false →
      numReal.real (numReal.div x (numReal.absmax w)) = some r → SignType.sign r = SignType.sign x

/-- 42_shared_numerics.md R198: `NUM_REAL` has `P-PEAK`; its peak is `k0` exactly. -/
def Obligations.NumRealHasPPeak : Prop :=
  PPeak numReal ∧
    ∀ (L k0 : ℕ) (c : ℝ), 3 ≤ L → 0 < k0 → 2 * k0 < L → 0 < c →
      numReal.peakBin ((List.range L).map fun m => c * Real.sin (2 * Real.pi * k0 * m / L)) = k0

/-- 41_decode.md R168, for every numerics record with `P-NORM` and `P-PEAK` (formal reading: log 17, log 20), over any sample
type: where `ENCD` succeeds with a largest absolute value `M` that denotes a positive real (the rule's `c = 1 / M > 0`),
`DEC` run after it with the same registers gives the message back, for every byte string. -/
def Obligations.DecodeRecoversEncodedMessage : Prop :=
  ∀ (S : Type) [Inhabited S] (cfg : Config S) (s t u : Block S) (k k0 k1 : ℕ), PNorm cfg.num → PPeak cfg.num →
    s.srate.toInt = 10 * (k : ℤ) → 3 ≤ k →
    s.f0.toInt = 10000 * (k0 : ℤ) → s.f1.toInt = 10000 * (k1 : ℤ) → 0 < k0 → 0 < k1 → k0 ≠ k1 →
    2 * k0 < k → 2 * k1 < k → s.mlen ≠ 0#32 → s.mlen.toNat ≤ cfg.msgMax →
    8 * s.mlen.toNat * k ≤ cfg.sampMax → (∀ c < s.mlen.toNat, Memory.read s.msg c ≠ none) →
    (∃ m : ℝ, 0 < m ∧ cfg.num.real (cfg.num.absmax (encodeWave cfg .derived s)) = some m) →
    t = encodeStep cfg .derived s → t.status = 0x00000002#32 → u = decodeStep cfg t →
    u.status = 0x00000002#32 ∧ u.mlen = s.mlen ∧ ∀ c < s.mlen.toNat, Memory.read u.msg c = Memory.read s.msg c

/-- 41_decode.md R168 under `NUM_REAL`, stage by stage: the tone generator never ends in DegenerateSignal, and
classifying and deserializing the normalized waveform gives the message back, for every non-empty byte string. -/
def Obligations.RealWaveformDecodesToItsMessage : Prop :=
  ∀ (bytes : List Byte) (k k0 k1 : ℕ) (w : List ℝ), bytes ≠ [] → 3 ≤ k → 0 < k0 → 0 < k1 → k0 ≠ k1 →
    2 * k0 < k → 2 * k1 < k →
    w = waveform numReal (serialize bytes) (8 * bytes.length * k) k ((8 * bytes.length : ℕ) / 10) (10 * k0) (10 * k1) →
    degenerate numReal k w = false ∧
      deserialize (decodeBits numReal (normalizeWave numReal w) (8 * bytes.length) k (10 * k) (10 * k0) (10 * k1)) =
        bytes
end

