-- ==== Sys2Proof/Laws/Memory.lean ====
section
/-! SUPPORT. The laws of the cell spaces: read after write, read after a commit, and that every operation keeps
the canonical form and the range of indices. -/

namespace Sys2Proof.Machine

variable {α : Type}

@[simp] theorem read_nil (i : ℕ) : Memory.read ([] : Memory α) i = none := rfl

theorem read_write_same (m : Memory α) (i : ℕ) (v : α) : Memory.read (Memory.write m i v) i = some v := by
  induction m with
  | nil => simp [Memory.write, Memory.read]
  | cons c rest ih =>
    obtain ⟨j, u⟩ := c
    unfold Memory.write
    split_ifs with h1 h2
    · simp [Memory.read]
    · simp [Memory.read]
    · simp [Memory.read, h2, h1, ih]

theorem read_write_other (m : Memory α) (i j : ℕ) (v : α) (h : j ≠ i) :
    Memory.read (Memory.write m i v) j = Memory.read m j := by
  induction m with
  | nil => simp [Memory.write, Memory.read, h]
  | cons c rest ih =>
    obtain ⟨k, u⟩ := c
    unfold Memory.write
    split_ifs with h1 h2
    · by_cases hj : j < i
      · have : j ≠ k ∧ j < k := by omega
        simp [Memory.read, h, hj, this]
      · simp [Memory.read, h, hj]
    · subst h2
      simp [Memory.read, h]
    · simp [Memory.read, ih]

/-- Below its first index a block says nothing. -/
theorem read_block_append (i : ℕ) (vs : List α) (m : Memory α) (j : ℕ) (h : i ≤ j) :
    Memory.read (Memory.block i vs ++ m) j =
      if j < i + vs.length then vs[j - i]? else Memory.read m j := by
  induction vs generalizing i with
  | nil => simp [Memory.block, show ¬ j < i by omega]
  | cons v rest ih =>
    simp only [Memory.block, List.cons_append, Memory.read, List.length_cons]
    by_cases hj : j = i
    · subst hj; simp
    · rw [if_neg hj, if_neg (by omega : ¬ j < i), ih (i + 1) (by omega)]
      have : j - i = (j - (i + 1)) + 1 := by omega
      simp only [this, List.getElem?_cons_succ]
      congr 1
      simp only [eq_iff_iff]
      omega

theorem read_filter_ge (m : Memory α) (n j : ℕ) (h : n ≤ j) :
    Memory.read (m.filter fun c => decide (n ≤ c.1)) j = Memory.read m j := by
  induction m with
  | nil => rfl
  | cons c rest ih =>
    obtain ⟨k, u⟩ := c
    by_cases hk : n ≤ k
    · simp [hk, Memory.read, ih]
    · have : j ≠ k ∧ ¬ j < k := by omega
      simp [hk, Memory.read, ih, this]

/-- What a cell holds after a commit. -/
theorem read_writePrefix (m : Memory α) (vs : List α) (j : ℕ) :
    Memory.read (Memory.writePrefix m vs) j = if j < vs.length then vs[j]? else Memory.read m j := by
  unfold Memory.writePrefix
  rw [read_block_append 0 vs _ j (Nat.zero_le j)]
  simp only [Nat.zero_add, Nat.sub_zero]
  split_ifs with h
  · rfl
  · exact read_filter_ge m _ j (by omega)

@[simp] theorem writePrefix_nil (m : Memory α) : Memory.writePrefix m [] = m := by
  simp [Memory.writePrefix, Memory.block]

/-! ### The canonical form -/

theorem wf_iff_pairwise (m : Memory α) : Memory.wf m = true ↔ m.Pairwise fun a b => a.1 < b.1 := by
  induction m with
  | nil => simp [Memory.wf]
  | cons a rest ih =>
    cases rest with
    | nil => simp [Memory.wf]
    | cons b rest =>
      simp only [Memory.wf, Bool.and_eq_true, decide_eq_true_eq, ih]
      constructor
      · rintro ⟨hab, hp⟩
        refine List.pairwise_cons.2 ⟨?_, hp⟩
        intro c hc
        rcases List.mem_cons.1 hc with rfl | hc
        · exact hab
        · exact lt_trans hab ((List.pairwise_cons.1 hp).1 c hc)
      · intro hp
        exact ⟨(List.pairwise_cons.1 hp).1 b List.mem_cons_self, (List.pairwise_cons.1 hp).2⟩

theorem mem_write (m : Memory α) (i : ℕ) (v : α) (c : ℕ × α) (h : c ∈ Memory.write m i v) :
    c = (i, v) ∨ c ∈ m := by
  induction m with
  | nil => simpa [Memory.write] using h
  | cons d rest ih =>
    obtain ⟨k, u⟩ := d
    unfold Memory.write at h
    split_ifs at h with h1 h2
    · simpa using h
    · rcases List.mem_cons.1 h with h | h
      · exact .inl h
      · exact .inr (List.mem_cons_of_mem _ h)
    · rcases List.mem_cons.1 h with h | h
      · exact .inr (h ▸ List.mem_cons_self)
      · exact (ih h).imp_right (List.mem_cons_of_mem _)

theorem wf_write (m : Memory α) (i : ℕ) (v : α) (h : Memory.wf m = true) :
    Memory.wf (Memory.write m i v) = true := by
  rw [wf_iff_pairwise] at h ⊢
  induction m with
  | nil => simp [Memory.write]
  | cons d rest ih =>
    obtain ⟨k, u⟩ := d
    obtain ⟨h0, hr⟩ := List.pairwise_cons.1 h
    unfold Memory.write
    split_ifs with h1 h2
    · refine List.pairwise_cons.2 ⟨?_, h⟩
      intro c hc
      rcases List.mem_cons.1 hc with rfl | hc
      · exact h1
      · exact lt_trans h1 (h0 c hc)
    · subst h2
      exact List.pairwise_cons.2 ⟨h0, hr⟩
    · refine List.pairwise_cons.2 ⟨?_, ih hr⟩
      intro c hc
      rcases mem_write _ _ _ _ hc with rfl | hc
      · simp only; omega
      · exact h0 c hc

theorem mem_block (i : ℕ) (vs : List α) (c : ℕ × α) (h : c ∈ Memory.block i vs) :
    i ≤ c.1 ∧ c.1 < i + vs.length := by
  induction vs generalizing i with
  | nil => simp [Memory.block] at h
  | cons v rest ih =>
    rcases List.mem_cons.1 h with rfl | h
    · simp
    · have := ih (i + 1) h
      simp only [List.length_cons]
      omega

theorem pairwise_block (i : ℕ) (vs : List α) : (Memory.block i vs).Pairwise fun a b => a.1 < b.1 := by
  induction vs generalizing i with
  | nil => exact .nil
  | cons v rest ih =>
    refine List.pairwise_cons.2 ⟨?_, ih (i + 1)⟩
    intro c hc
    have := mem_block _ _ _ hc
    simp only; omega

theorem wf_writePrefix (m : Memory α) (vs : List α) (h : Memory.wf m = true) :
    Memory.wf (Memory.writePrefix m vs) = true := by
  rw [wf_iff_pairwise] at h ⊢
  refine List.pairwise_append.2 ⟨pairwise_block 0 vs, h.filter _, ?_⟩
  intro a ha b hb
  have h1 := (mem_block _ _ _ ha).2
  have h2 := (List.mem_filter.1 hb).2
  simp only [decide_eq_true_eq] at h2
  omega

theorem mem_writePrefix (m : Memory α) (vs : List α) (c : ℕ × α) (h : c ∈ Memory.writePrefix m vs) :
    c.1 < vs.length ∨ c ∈ m := by
  rcases List.mem_append.1 h with h | h
  · exact .inl (by simpa using (mem_block _ _ _ h).2)
  · exact .inr (List.mem_filter.1 h).1

end Sys2Proof.Machine
end

