-- ==== Sys2Proof/Laws/State.lean ====
section
/-! SUPPORT. One lemma per field of the state per named update, true by rfl, so that no proof unfolds a record
update; and the frame of the register write, whose register is data. -/

namespace Sys2Proof.Machine

variable {S : Type}

/-! ### `respond` -/

@[simp] theorem respond_status (s : Block S) (r : Response S) : (s.respond r).status = s.status := rfl
@[simp] theorem respond_srate (s : Block S) (r : Response S) : (s.respond r).srate = s.srate := rfl
@[simp] theorem respond_wrate (s : Block S) (r : Response S) : (s.respond r).wrate = s.wrate := rfl
@[simp] theorem respond_f0 (s : Block S) (r : Response S) : (s.respond r).f0 = s.f0 := rfl
@[simp] theorem respond_f1 (s : Block S) (r : Response S) : (s.respond r).f1 = s.f1 := rfl
@[simp] theorem respond_dur (s : Block S) (r : Response S) : (s.respond r).dur = s.dur := rfl
@[simp] theorem respond_mlen (s : Block S) (r : Response S) : (s.respond r).mlen = s.mlen := rfl
@[simp] theorem respond_slen (s : Block S) (r : Response S) : (s.respond r).slen = s.slen := rfl
@[simp] theorem respond_nbits (s : Block S) (r : Response S) : (s.respond r).nbits = s.nbits := rfl
@[simp] theorem respond_spb (s : Block S) (r : Response S) : (s.respond r).spb = s.spb := rfl
@[simp] theorem respond_pend (s : Block S) (r : Response S) : (s.respond r).pend = s.pend := rfl
@[simp] theorem respond_msg (s : Block S) (r : Response S) : (s.respond r).msg = s.msg := rfl
@[simp] theorem respond_smp (s : Block S) (r : Response S) : (s.respond r).smp = s.smp := rfl
@[simp] theorem respond_port (s : Block S) (r : Response S) : (s.respond r).port = r := rfl
@[simp] theorem respond_draws (s : Block S) (r : Response S) : (s.respond r).draws = s.draws := rfl

/-! ### `drawn` -/

@[simp] theorem drawn_status (s : Block S) (k : ℕ) : (s.drawn k).status = s.status := rfl
@[simp] theorem drawn_srate (s : Block S) (k : ℕ) : (s.drawn k).srate = s.srate := rfl
@[simp] theorem drawn_wrate (s : Block S) (k : ℕ) : (s.drawn k).wrate = s.wrate := rfl
@[simp] theorem drawn_f0 (s : Block S) (k : ℕ) : (s.drawn k).f0 = s.f0 := rfl
@[simp] theorem drawn_f1 (s : Block S) (k : ℕ) : (s.drawn k).f1 = s.f1 := rfl
@[simp] theorem drawn_dur (s : Block S) (k : ℕ) : (s.drawn k).dur = s.dur := rfl
@[simp] theorem drawn_mlen (s : Block S) (k : ℕ) : (s.drawn k).mlen = s.mlen := rfl
@[simp] theorem drawn_slen (s : Block S) (k : ℕ) : (s.drawn k).slen = s.slen := rfl
@[simp] theorem drawn_nbits (s : Block S) (k : ℕ) : (s.drawn k).nbits = s.nbits := rfl
@[simp] theorem drawn_spb (s : Block S) (k : ℕ) : (s.drawn k).spb = s.spb := rfl
@[simp] theorem drawn_pend (s : Block S) (k : ℕ) : (s.drawn k).pend = s.pend := rfl
@[simp] theorem drawn_msg (s : Block S) (k : ℕ) : (s.drawn k).msg = s.msg := rfl
@[simp] theorem drawn_smp (s : Block S) (k : ℕ) : (s.drawn k).smp = s.smp := rfl
@[simp] theorem drawn_port (s : Block S) (k : ℕ) : (s.drawn k).port = s.port := rfl
@[simp] theorem drawn_draws (s : Block S) (k : ℕ) : (s.drawn k).draws = s.draws + k := rfl

/-! ### `resetEvent` -/

@[simp] theorem resetEvent_status (s : Block S) : (s.resetEvent).status = (Block.reset : Block S).status := rfl
@[simp] theorem resetEvent_srate (s : Block S) : (s.resetEvent).srate = (Block.reset : Block S).srate := rfl
@[simp] theorem resetEvent_wrate (s : Block S) : (s.resetEvent).wrate = (Block.reset : Block S).wrate := rfl
@[simp] theorem resetEvent_f0 (s : Block S) : (s.resetEvent).f0 = (Block.reset : Block S).f0 := rfl
@[simp] theorem resetEvent_f1 (s : Block S) : (s.resetEvent).f1 = (Block.reset : Block S).f1 := rfl
@[simp] theorem resetEvent_dur (s : Block S) : (s.resetEvent).dur = (Block.reset : Block S).dur := rfl
@[simp] theorem resetEvent_mlen (s : Block S) : (s.resetEvent).mlen = (Block.reset : Block S).mlen := rfl
@[simp] theorem resetEvent_slen (s : Block S) : (s.resetEvent).slen = (Block.reset : Block S).slen := rfl
@[simp] theorem resetEvent_nbits (s : Block S) : (s.resetEvent).nbits = (Block.reset : Block S).nbits := rfl
@[simp] theorem resetEvent_spb (s : Block S) : (s.resetEvent).spb = (Block.reset : Block S).spb := rfl
@[simp] theorem resetEvent_pend (s : Block S) : (s.resetEvent).pend = (Block.reset : Block S).pend := rfl
@[simp] theorem resetEvent_msg (s : Block S) : (s.resetEvent).msg = (Block.reset : Block S).msg := rfl
@[simp] theorem resetEvent_smp (s : Block S) : (s.resetEvent).smp = (Block.reset : Block S).smp := rfl
@[simp] theorem resetEvent_port (s : Block S) : (s.resetEvent).port = (Block.reset : Block S).port := rfl
@[simp] theorem resetEvent_draws (s : Block S) : (s.resetEvent).draws = s.draws := rfl

/-! ### `raise` -/

@[simp] theorem raise_status (s : Block S) (e : ErrCode) : (raise e s).status = errorWord e := rfl
@[simp] theorem raise_srate (s : Block S) (e : ErrCode) : (raise e s).srate = s.srate := rfl
@[simp] theorem raise_wrate (s : Block S) (e : ErrCode) : (raise e s).wrate = s.wrate := rfl
@[simp] theorem raise_f0 (s : Block S) (e : ErrCode) : (raise e s).f0 = s.f0 := rfl
@[simp] theorem raise_f1 (s : Block S) (e : ErrCode) : (raise e s).f1 = s.f1 := rfl
@[simp] theorem raise_dur (s : Block S) (e : ErrCode) : (raise e s).dur = s.dur := rfl
@[simp] theorem raise_mlen (s : Block S) (e : ErrCode) : (raise e s).mlen = s.mlen := rfl
@[simp] theorem raise_slen (s : Block S) (e : ErrCode) : (raise e s).slen = s.slen := rfl
@[simp] theorem raise_nbits (s : Block S) (e : ErrCode) : (raise e s).nbits = s.nbits := rfl
@[simp] theorem raise_spb (s : Block S) (e : ErrCode) : (raise e s).spb = s.spb := rfl
@[simp] theorem raise_pend (s : Block S) (e : ErrCode) : (raise e s).pend = s.pend := rfl
@[simp] theorem raise_msg (s : Block S) (e : ErrCode) : (raise e s).msg = s.msg := rfl
@[simp] theorem raise_smp (s : Block S) (e : ErrCode) : (raise e s).smp = s.smp := rfl
@[simp] theorem raise_port (s : Block S) (e : ErrCode) : (raise e s).port = s.port := rfl
@[simp] theorem raise_draws (s : Block S) (e : ErrCode) : (raise e s).draws = s.draws := rfl

/-! ### `accept` -/

@[simp] theorem accept_status (s : Block S) (c : Word) : (accept c s).status = busyWord := rfl
@[simp] theorem accept_srate (s : Block S) (c : Word) : (accept c s).srate = s.srate := rfl
@[simp] theorem accept_wrate (s : Block S) (c : Word) : (accept c s).wrate = s.wrate := rfl
@[simp] theorem accept_f0 (s : Block S) (c : Word) : (accept c s).f0 = s.f0 := rfl
@[simp] theorem accept_f1 (s : Block S) (c : Word) : (accept c s).f1 = s.f1 := rfl
@[simp] theorem accept_dur (s : Block S) (c : Word) : (accept c s).dur = s.dur := rfl
@[simp] theorem accept_mlen (s : Block S) (c : Word) : (accept c s).mlen = s.mlen := rfl
@[simp] theorem accept_slen (s : Block S) (c : Word) : (accept c s).slen = s.slen := rfl
@[simp] theorem accept_nbits (s : Block S) (c : Word) : (accept c s).nbits = s.nbits := rfl
@[simp] theorem accept_spb (s : Block S) (c : Word) : (accept c s).spb = s.spb := rfl
@[simp] theorem accept_pend (s : Block S) (c : Word) : (accept c s).pend = c := rfl
@[simp] theorem accept_msg (s : Block S) (c : Word) : (accept c s).msg = s.msg := rfl
@[simp] theorem accept_smp (s : Block S) (c : Word) : (accept c s).smp = s.smp := rfl
@[simp] theorem accept_port (s : Block S) (c : Word) : (accept c s).port = s.port := rfl
@[simp] theorem accept_draws (s : Block S) (c : Word) : (accept c s).draws = s.draws := rfl

/-! ### `storeMsg` -/

@[simp] theorem storeMsg_status (s : Block S) (i : ℕ) (v : Byte) : (storeMsg i v s).status = s.status := rfl
@[simp] theorem storeMsg_srate (s : Block S) (i : ℕ) (v : Byte) : (storeMsg i v s).srate = s.srate := rfl
@[simp] theorem storeMsg_wrate (s : Block S) (i : ℕ) (v : Byte) : (storeMsg i v s).wrate = s.wrate := rfl
@[simp] theorem storeMsg_f0 (s : Block S) (i : ℕ) (v : Byte) : (storeMsg i v s).f0 = s.f0 := rfl
@[simp] theorem storeMsg_f1 (s : Block S) (i : ℕ) (v : Byte) : (storeMsg i v s).f1 = s.f1 := rfl
@[simp] theorem storeMsg_dur (s : Block S) (i : ℕ) (v : Byte) : (storeMsg i v s).dur = s.dur := rfl
@[simp] theorem storeMsg_mlen (s : Block S) (i : ℕ) (v : Byte) : (storeMsg i v s).mlen = s.mlen := rfl
@[simp] theorem storeMsg_slen (s : Block S) (i : ℕ) (v : Byte) : (storeMsg i v s).slen = s.slen := rfl
@[simp] theorem storeMsg_nbits (s : Block S) (i : ℕ) (v : Byte) : (storeMsg i v s).nbits = s.nbits := rfl
@[simp] theorem storeMsg_spb (s : Block S) (i : ℕ) (v : Byte) : (storeMsg i v s).spb = s.spb := rfl
@[simp] theorem storeMsg_pend (s : Block S) (i : ℕ) (v : Byte) : (storeMsg i v s).pend = s.pend := rfl
@[simp] theorem storeMsg_msg (s : Block S) (i : ℕ) (v : Byte) : (storeMsg i v s).msg = Memory.write s.msg i v := rfl
@[simp] theorem storeMsg_smp (s : Block S) (i : ℕ) (v : Byte) : (storeMsg i v s).smp = s.smp := rfl
@[simp] theorem storeMsg_port (s : Block S) (i : ℕ) (v : Byte) : (storeMsg i v s).port = s.port := rfl
@[simp] theorem storeMsg_draws (s : Block S) (i : ℕ) (v : Byte) : (storeMsg i v s).draws = s.draws := rfl

/-! ### `storeSmp` -/

@[simp] theorem storeSmp_status (s : Block S) (i : ℕ) (x : S) : (storeSmp i x s).status = s.status := rfl
@[simp] theorem storeSmp_srate (s : Block S) (i : ℕ) (x : S) : (storeSmp i x s).srate = s.srate := rfl
@[simp] theorem storeSmp_wrate (s : Block S) (i : ℕ) (x : S) : (storeSmp i x s).wrate = s.wrate := rfl
@[simp] theorem storeSmp_f0 (s : Block S) (i : ℕ) (x : S) : (storeSmp i x s).f0 = s.f0 := rfl
@[simp] theorem storeSmp_f1 (s : Block S) (i : ℕ) (x : S) : (storeSmp i x s).f1 = s.f1 := rfl
@[simp] theorem storeSmp_dur (s : Block S) (i : ℕ) (x : S) : (storeSmp i x s).dur = s.dur := rfl
@[simp] theorem storeSmp_mlen (s : Block S) (i : ℕ) (x : S) : (storeSmp i x s).mlen = s.mlen := rfl
@[simp] theorem storeSmp_slen (s : Block S) (i : ℕ) (x : S) : (storeSmp i x s).slen = s.slen := rfl
@[simp] theorem storeSmp_nbits (s : Block S) (i : ℕ) (x : S) : (storeSmp i x s).nbits = s.nbits := rfl
@[simp] theorem storeSmp_spb (s : Block S) (i : ℕ) (x : S) : (storeSmp i x s).spb = s.spb := rfl
@[simp] theorem storeSmp_pend (s : Block S) (i : ℕ) (x : S) : (storeSmp i x s).pend = s.pend := rfl
@[simp] theorem storeSmp_msg (s : Block S) (i : ℕ) (x : S) : (storeSmp i x s).msg = s.msg := rfl
@[simp] theorem storeSmp_smp (s : Block S) (i : ℕ) (x : S) : (storeSmp i x s).smp = Memory.write s.smp i x := rfl
@[simp] theorem storeSmp_port (s : Block S) (i : ℕ) (x : S) : (storeSmp i x s).port = s.port := rfl
@[simp] theorem storeSmp_draws (s : Block S) (i : ℕ) (x : S) : (storeSmp i x s).draws = s.draws := rfl

/-! ### `commitEncode` -/

@[simp] theorem commitEncode_status (s : Block S) (out : List S) (b p : ℕ) : (commitEncode out b p s).status = successWord := rfl
@[simp] theorem commitEncode_srate (s : Block S) (out : List S) (b p : ℕ) : (commitEncode out b p s).srate = s.srate := rfl
@[simp] theorem commitEncode_wrate (s : Block S) (out : List S) (b p : ℕ) : (commitEncode out b p s).wrate = s.srate := rfl
@[simp] theorem commitEncode_f0 (s : Block S) (out : List S) (b p : ℕ) : (commitEncode out b p s).f0 = s.f0 := rfl
@[simp] theorem commitEncode_f1 (s : Block S) (out : List S) (b p : ℕ) : (commitEncode out b p s).f1 = s.f1 := rfl
@[simp] theorem commitEncode_dur (s : Block S) (out : List S) (b p : ℕ) : (commitEncode out b p s).dur = s.dur := rfl
@[simp] theorem commitEncode_mlen (s : Block S) (out : List S) (b p : ℕ) : (commitEncode out b p s).mlen = s.mlen := rfl
@[simp] theorem commitEncode_slen (s : Block S) (out : List S) (b p : ℕ) : (commitEncode out b p s).slen = BitVec.ofNat 32 out.length := rfl
@[simp] theorem commitEncode_nbits (s : Block S) (out : List S) (b p : ℕ) : (commitEncode out b p s).nbits = BitVec.ofNat 32 b := rfl
@[simp] theorem commitEncode_spb (s : Block S) (out : List S) (b p : ℕ) : (commitEncode out b p s).spb = BitVec.ofNat 32 p := rfl
@[simp] theorem commitEncode_pend (s : Block S) (out : List S) (b p : ℕ) : (commitEncode out b p s).pend = s.pend := rfl
@[simp] theorem commitEncode_msg (s : Block S) (out : List S) (b p : ℕ) : (commitEncode out b p s).msg = s.msg := rfl
@[simp] theorem commitEncode_smp (s : Block S) (out : List S) (b p : ℕ) : (commitEncode out b p s).smp = Memory.writePrefix s.smp out := rfl
@[simp] theorem commitEncode_port (s : Block S) (out : List S) (b p : ℕ) : (commitEncode out b p s).port = s.port := rfl
@[simp] theorem commitEncode_draws (s : Block S) (out : List S) (b p : ℕ) : (commitEncode out b p s).draws = s.draws := rfl

/-! ### `commitDecode` -/

@[simp] theorem commitDecode_status (s : Block S) (bytes : List Byte) (b p : ℕ) : (commitDecode bytes b p s).status = successWord := rfl
@[simp] theorem commitDecode_srate (s : Block S) (bytes : List Byte) (b p : ℕ) : (commitDecode bytes b p s).srate = s.srate := rfl
@[simp] theorem commitDecode_wrate (s : Block S) (bytes : List Byte) (b p : ℕ) : (commitDecode bytes b p s).wrate = s.wrate := rfl
@[simp] theorem commitDecode_f0 (s : Block S) (bytes : List Byte) (b p : ℕ) : (commitDecode bytes b p s).f0 = s.f0 := rfl
@[simp] theorem commitDecode_f1 (s : Block S) (bytes : List Byte) (b p : ℕ) : (commitDecode bytes b p s).f1 = s.f1 := rfl
@[simp] theorem commitDecode_dur (s : Block S) (bytes : List Byte) (b p : ℕ) : (commitDecode bytes b p s).dur = s.dur := rfl
@[simp] theorem commitDecode_mlen (s : Block S) (bytes : List Byte) (b p : ℕ) : (commitDecode bytes b p s).mlen = BitVec.ofNat 32 bytes.length := rfl
@[simp] theorem commitDecode_slen (s : Block S) (bytes : List Byte) (b p : ℕ) : (commitDecode bytes b p s).slen = s.slen := rfl
@[simp] theorem commitDecode_nbits (s : Block S) (bytes : List Byte) (b p : ℕ) : (commitDecode bytes b p s).nbits = BitVec.ofNat 32 b := rfl
@[simp] theorem commitDecode_spb (s : Block S) (bytes : List Byte) (b p : ℕ) : (commitDecode bytes b p s).spb = BitVec.ofNat 32 p := rfl
@[simp] theorem commitDecode_pend (s : Block S) (bytes : List Byte) (b p : ℕ) : (commitDecode bytes b p s).pend = s.pend := rfl
@[simp] theorem commitDecode_msg (s : Block S) (bytes : List Byte) (b p : ℕ) : (commitDecode bytes b p s).msg = Memory.writePrefix s.msg bytes := rfl
@[simp] theorem commitDecode_smp (s : Block S) (bytes : List Byte) (b p : ℕ) : (commitDecode bytes b p s).smp = s.smp := rfl
@[simp] theorem commitDecode_port (s : Block S) (bytes : List Byte) (b p : ℕ) : (commitDecode bytes b p s).port = s.port := rfl
@[simp] theorem commitDecode_draws (s : Block S) (bytes : List Byte) (b p : ℕ) : (commitDecode bytes b p s).draws = s.draws := rfl

/-! ### `unspecifiedDecode` -/

@[simp] theorem unspecifiedDecode_status (s : Block S) (m : ℕ) : (unspecifiedDecode m s).status = completedWord (Config.freeStatus s.draws) := rfl
@[simp] theorem unspecifiedDecode_srate (s : Block S) (m : ℕ) : (unspecifiedDecode m s).srate = s.srate := rfl
@[simp] theorem unspecifiedDecode_wrate (s : Block S) (m : ℕ) : (unspecifiedDecode m s).wrate = s.wrate := rfl
@[simp] theorem unspecifiedDecode_f0 (s : Block S) (m : ℕ) : (unspecifiedDecode m s).f0 = s.f0 := rfl
@[simp] theorem unspecifiedDecode_f1 (s : Block S) (m : ℕ) : (unspecifiedDecode m s).f1 = s.f1 := rfl
@[simp] theorem unspecifiedDecode_dur (s : Block S) (m : ℕ) : (unspecifiedDecode m s).dur = s.dur := rfl
@[simp] theorem unspecifiedDecode_mlen (s : Block S) (m : ℕ) : (unspecifiedDecode m s).mlen = Config.freeWord s.draws := rfl
@[simp] theorem unspecifiedDecode_slen (s : Block S) (m : ℕ) : (unspecifiedDecode m s).slen = s.slen := rfl
@[simp] theorem unspecifiedDecode_nbits (s : Block S) (m : ℕ) : (unspecifiedDecode m s).nbits = Config.freeWord (s.draws + 1) := rfl
@[simp] theorem unspecifiedDecode_spb (s : Block S) (m : ℕ) : (unspecifiedDecode m s).spb = Config.freeWord (s.draws + 2) := rfl
@[simp] theorem unspecifiedDecode_pend (s : Block S) (m : ℕ) : (unspecifiedDecode m s).pend = s.pend := rfl
@[simp] theorem unspecifiedDecode_msg (s : Block S) (m : ℕ) : (unspecifiedDecode m s).msg = Memory.writePrefix s.msg ((List.range m).map fun c => Config.freeByte (s.draws + c)) := rfl
@[simp] theorem unspecifiedDecode_smp (s : Block S) (m : ℕ) : (unspecifiedDecode m s).smp = s.smp := rfl
@[simp] theorem unspecifiedDecode_port (s : Block S) (m : ℕ) : (unspecifiedDecode m s).port = s.port := rfl
@[simp] theorem unspecifiedDecode_draws (s : Block S) (m : ℕ) : (unspecifiedDecode m s).draws = s.draws + (m + 3) := rfl

/-! ### `onBlock` and `consume`: the state around its block -/

@[simp] theorem onBlock_toBlock (s : State) (f : Block Sample → Block Sample) :
    (s.onBlock f).toBlock = f s.toBlock := rfl
@[simp] theorem onBlock_inputs (s : State) (f : Block Sample → Block Sample) :
    (s.onBlock f).inputs = s.inputs := rfl
@[simp] theorem consume_toBlock (s : State) : s.consume.toBlock = s.toBlock := rfl
@[simp] theorem consume_inputs (s : State) : s.consume.inputs = s.inputs.tail := rfl

/-! ### `writeReg`: status, results, latch, cells and the model's own fields are never its target -/

@[simp] theorem writeReg_status (s : Block S) (r : ℕ) (v : Word) : (s.writeReg r v).status = s.status := by
  unfold Block.writeReg; split <;> rfl
@[simp] theorem writeReg_nbits (s : Block S) (r : ℕ) (v : Word) : (s.writeReg r v).nbits = s.nbits := by
  unfold Block.writeReg; split <;> rfl
@[simp] theorem writeReg_spb (s : Block S) (r : ℕ) (v : Word) : (s.writeReg r v).spb = s.spb := by
  unfold Block.writeReg; split <;> rfl
@[simp] theorem writeReg_pend (s : Block S) (r : ℕ) (v : Word) : (s.writeReg r v).pend = s.pend := by
  unfold Block.writeReg; split <;> rfl
@[simp] theorem writeReg_msg (s : Block S) (r : ℕ) (v : Word) : (s.writeReg r v).msg = s.msg := by
  unfold Block.writeReg; split <;> rfl
@[simp] theorem writeReg_smp (s : Block S) (r : ℕ) (v : Word) : (s.writeReg r v).smp = s.smp := by
  unfold Block.writeReg; split <;> rfl
@[simp] theorem writeReg_port (s : Block S) (r : ℕ) (v : Word) : (s.writeReg r v).port = s.port := by
  unfold Block.writeReg; split <;> rfl
@[simp] theorem writeReg_draws (s : Block S) (r : ℕ) (v : Word) : (s.writeReg r v).draws = s.draws := by
  unfold Block.writeReg; split <;> rfl

/-! ### `busy` reads `STATUS` alone -/

@[simp] theorem busy_respond (s : Block S) (r : Response S) : (s.respond r).busy = s.busy := rfl
@[simp] theorem busy_drawn (s : Block S) (k : ℕ) : (s.drawn k).busy = s.busy := rfl
@[simp] theorem busy_storeMsg (s : Block S) (i : ℕ) (v : Byte) : (storeMsg i v s).busy = s.busy := rfl
@[simp] theorem busy_storeSmp (s : Block S) (i : ℕ) (x : S) : (storeSmp i x s).busy = s.busy := rfl
@[simp] theorem busy_writeReg (s : Block S) (r : ℕ) (v : Word) : (s.writeReg r v).busy = s.busy := by
  simp [Block.busy]
@[simp] theorem busy_accept (s : Block S) (c : Word) : (accept c s).busy = true := by
  change busyFlag busyWord = true; decide
@[simp] theorem busy_raise (s : Block S) (e : ErrCode) : (raise e s).busy = false := by
  change busyFlag (errorWord e) = false; cases e <;> decide

@[simp] theorem drawn_zero (s : Block S) : s.drawn 0 = s := rfl

end Sys2Proof.Machine
end

