-- ==== Sys2Proof/Laws/Operations.lean ====
section
/-! SUPPORT. What each shared operation can do, once: the cases of a host access, of an encode, of a decode and
of a turn. Proofs cite these instead of unfolding. -/

namespace Sys2Proof.Machine

variable {S : Type}

theorem msgMax_eq (cfg : Config S) : cfg.msgMax = cfg.msgTop.val + 1 := rfl

theorem sampMax_eq (cfg : Config S) : cfg.sampMax = cfg.sampTop.val + 1 := rfl

/-- 00_scope.md R11. -/
theorem msgMax_bounds (cfg : Config S) : 1 ≤ cfg.msgMax ∧ 8 * cfg.msgMax < 2 ^ 32 := by
  have := cfg.msgTop.isLt
  unfold Config.msgMax
  omega

/-- 00_scope.md R11. -/
theorem sampMax_bounds (cfg : Config S) : 1 ≤ cfg.sampMax ∧ cfg.sampMax < 2 ^ 31 := by
  have := cfg.sampTop.isLt
  unfold Config.sampMax
  omega

theorem busy_completedWord (k : Fin 12) : busyFlag (completedWord k) = false := by
  revert k; decide

theorem done_completedWord (k : Fin 12) : doneFlag (completedWord k) = true := by
  revert k; decide

theorem errorWord_completed (e : ErrCode) : ∃ k : Fin 12, errorWord e = completedWord k := by
  cases e
  exacts [⟨1, rfl⟩, ⟨2, rfl⟩, ⟨3, rfl⟩, ⟨4, rfl⟩, ⟨5, rfl⟩, ⟨6, rfl⟩, ⟨7, rfl⟩, ⟨8, rfl⟩, ⟨9, rfl⟩, ⟨10, rfl⟩, ⟨11, rfl⟩]

theorem successWord_completed : ∃ k : Fin 12, successWord = completedWord k := ⟨0, rfl⟩

/-! ### Host accesses -/

theorem memRead_outside [Inhabited S] (cfg : Config S) (sp : Space) (i : ℕ) (s : Block S) (h : topIndex cfg sp < i) :
    memRead cfg sp i s = s.respond .hostFault := if_pos h

theorem memRead_inside [Inhabited S] (cfg : Config S) (sp : Space) (i : ℕ) (s : Block S) (h : i ≤ topIndex cfg sp) :
    memRead cfg sp i s = readCell sp i s := if_neg (Nat.not_lt.2 h)

/-- A read answers on the port and may use up one free value; it does nothing else. -/
theorem memRead_frame [Inhabited S] (cfg : Config S) (sp : Space) (i : ℕ) (s : Block S) :
    ∃ r k, memRead cfg sp i s = (s.respond r).drawn k := by
  unfold memRead
  split_ifs
  · exact ⟨.hostFault, 0, rfl⟩
  · cases sp <;> simp only [readCell]
    · split_ifs
      · unfold readRegBusy
        split <;> first | exact ⟨_, 0, (drawn_zero _).symm⟩ | exact ⟨_, 1, rfl⟩
      · exact ⟨_, 0, (drawn_zero _).symm⟩
    · split
      · exact ⟨_, 0, (drawn_zero _).symm⟩
      · exact ⟨_, 1, rfl⟩
    · split
      · exact ⟨_, 0, (drawn_zero _).symm⟩
      · exact ⟨_, 1, rfl⟩

theorem memWrite_outside (cfg : Config S) (sp : Space) (i : ℕ) (store : Block S → Block S) (s : Block S)
    (h : topIndex cfg sp < i) : memWrite cfg sp i store s = s.respond .hostFault := if_pos h

theorem memWrite_busy (cfg : Config S) (sp : Space) (i : ℕ) (store : Block S → Block S) (s : Block S)
    (h : i ≤ topIndex cfg sp) (hb : s.busy = true) : memWrite cfg sp i store s = s.respond .ok := by
  rw [memWrite, if_neg (Nat.not_lt.2 h), if_pos hb]

theorem memWrite_idle (cfg : Config S) (sp : Space) (i : ℕ) (store : Block S → Block S) (s : Block S)
    (h : i ≤ topIndex cfg sp) (hb : s.busy = false) :
    memWrite cfg sp i store s = (store s).respond .ok := by
  rw [memWrite, if_neg (Nat.not_lt.2 h), if_neg (by simp [hb])]

/-- A write answers on the port; only inside the space and while idle does its write rule run. -/
theorem memWrite_cases (cfg : Config S) (sp : Space) (i : ℕ) (store : Block S → Block S) (s : Block S) :
    (∃ r, memWrite cfg sp i store s = s.respond r) ∨
      i ≤ topIndex cfg sp ∧ s.busy = false ∧ memWrite cfg sp i store s = (store s).respond .ok := by
  unfold memWrite
  split_ifs with h hb
  · exact .inl ⟨_, rfl⟩
  · exact .inl ⟨_, rfl⟩
  · exact .inr ⟨Nat.not_lt.1 h, by simpa using hb, rfl⟩

/-- A write to `CMD` accepts one of the three commands or posts UsageError. -/
theorem dispatch_cases (c : Word) (s : Block S) :
    (c = 1#32 ∨ c = 2#32 ∨ c = 3#32) ∧ dispatch c s = accept c s ∨
      (c ≠ 1#32 ∧ c ≠ 2#32 ∧ c ≠ 3#32) ∧ dispatch c s = raise .usage s := by
  unfold dispatch decodeCmd
  split_ifs with h1 h2 h3
  · exact .inl ⟨.inl h1, rfl⟩
  · exact .inl ⟨.inr (.inl h2), rfl⟩
  · exact .inl ⟨.inr (.inr h3), rfl⟩
  · exact .inr ⟨⟨h1, h2, h3⟩, rfl⟩

/-- Bits that are an access are a read or a write of some cell. -/
theorem decodeFrame_cases (f : Frame) (i : Instr) (h : decodeFrame f = .ok i) :
    (∃ sp k, i = readOf sp k) ∨ ∃ sp k v, i = writeOf sp k v := by
  unfold decodeFrame at h
  match f.bits, h with
  | [], h => cases h
  | [_], h => cases h
  | [_, _], h => cases h
  | d :: s1 :: s0 :: rest, h =>
    simp only at h
    cases hs : spaceOf s1 s0 with
    | none => simp [hs] at h
    | some sp =>
      simp only [hs] at h
      split_ifs at h with h1 h2 h3 h4
      · exact .inr ⟨_, _, _, (Except.ok.inj h).symm⟩
      · exact .inl ⟨_, _, (Except.ok.inj h).symm⟩

theorem exec_readOf (sp : Space) (k : ℕ) (s : State) :
    exec (readOf sp k) s = .next (s.onBlock (memRead Config.chip sp k)) := by
  cases sp <;> rfl

/-- A sample's word either is no whole cell, or is written as its value. -/
theorem memWriteWord_cases (cfg : Config S) (i : ℕ) (w : CellWord) (s : Block S) :
    sampleOfWord cfg.num w = none ∧ memWriteWord cfg i w s = s.respond .hostFault ∨
      ∃ x, sampleOfWord cfg.num w = some x ∧ memWriteWord cfg i w s = memWrite cfg .smp i (storeSmp i x) s := by
  unfold memWriteWord
  cases h : sampleOfWord cfg.num w with
  | none => exact .inl ⟨rfl, rfl⟩
  | some x => exact .inr ⟨x, rfl, rfl⟩

/-- On the machine, a word of its own width is the word its coding gives a value for. -/
theorem sampleOfWord_chip (bits : BitVec Config.chipWidth) :
    sampleOfWord Config.chip.num ⟨Config.chipWidth, bits⟩ = some (Config.chipDec bits) := by
  simp [sampleOfWord, Config.chip, Config.chipCoding]

/-- On the machine, a word of another width is no whole cell. -/
theorem sampleOfWord_chip_none (w : CellWord) (h : w.width ≠ Config.chipWidth) :
    sampleOfWord Config.chip.num w = none := by
  simp [sampleOfWord, Config.chip, Config.chipCoding, h]

/-- Whatever it writes, an access answers `HostFault`, or is a write with some write rule. -/
theorem exec_writeOf (sp : Space) (k : ℕ) (v : List Bool) (s : State) :
    exec (writeOf sp k v) s = .next (s.onBlock (Block.respond .hostFault)) ∨
      ∃ store, exec (writeOf sp k v) s = .next (s.onBlock (memWrite Config.chip sp k store)) := by
  cases sp
  · by_cases h : k = 0
    · subst h; exact .inr ⟨_, rfl⟩
    · simp only [writeOf, if_neg h]; exact .inr ⟨_, rfl⟩
  · exact .inr ⟨_, rfl⟩
  · simp only [writeOf, exec, execWrSmp, State.onBlock]
    rcases memWriteWord_cases Config.chip k ⟨v.length, BitVec.ofNat v.length (natOf v)⟩ s.toBlock with
      ⟨_, h⟩ | ⟨x, _, h⟩
    · exact .inl (by rw [h])
    · exact .inr ⟨storeSmp k x, by rw [h]⟩

/-! ### Commands -/

/-- An encode fails a check, ends in DegenerateSignal, or commits. -/
theorem encodeStep_cases (cfg : Config S) (v : DurationRule) (s : Block S) :
    (∃ e, encodeCheck cfg v s = some e ∧ encodeStep cfg v s = raise e s) ∨
      encodeCheck cfg v s = none ∧ degenerate cfg.num (encodeSpb v s) (encodeWave cfg v s) = true ∧
        encodeStep cfg v s = raise .degenerateSignal (s.drawn (uint s.mlen)) ∨
      encodeCheck cfg v s = none ∧ degenerate cfg.num (encodeSpb v s) (encodeWave cfg v s) = false ∧
        encodeStep cfg v s = commitEncode (normalizeWave cfg.num (encodeWave cfg v s)) (encodeBits s)
          (encodeSpb v s) (s.drawn (uint s.mlen)) := by
  unfold encodeStep
  cases hc : encodeCheck cfg v s with
  | some e => exact .inl ⟨e, rfl, rfl⟩
  | none =>
    cases hd : degenerate cfg.num (encodeSpb v s) (encodeWave cfg v s)
    · exact .inr (.inr ⟨rfl, rfl, by simp [hd]⟩)
    · exact .inr (.inl ⟨rfl, rfl, by simp [hd]⟩)

/-- A decode fails a check, commits, or met a non-number. -/
theorem decodeStep_cases [Inhabited S] (cfg : Config S) (s : Block S) :
    (∃ e, decodeCheck cfg s = some e ∧ decodeStep cfg s = raise e s) ∨
      decodeCheck cfg s = none ∧ allNumbers cfg.num (decodeSamples s) = true ∧
        decodeStep cfg s = commitDecode (decodeBytes cfg s) (decodeCount s) (decodeSpb s)
          (s.drawn (decodeCount s * decodeSpb s)) ∨
      decodeCheck cfg s = none ∧ allNumbers cfg.num (decodeSamples s) = false ∧
        decodeStep cfg s =
          unspecifiedDecode (decodeCount s / 8) (s.drawn (decodeCount s * decodeSpb s)) := by
  unfold decodeStep
  cases hc : decodeCheck cfg s with
  | some e => exact .inl ⟨e, rfl, rfl⟩
  | none =>
    cases hd : allNumbers cfg.num (decodeSamples s)
    · exact .inr (.inr ⟨rfl, rfl, by simp⟩)
    · exact .inr (.inl ⟨rfl, rfl, by simp⟩)

/-- Past its checks an encode has bits, fits the message cells and fits the sample cells. -/
theorem encodeCheck_none (cfg : Config S) (v : DurationRule) (s : Block S) (h : encodeCheck cfg v s = none) :
    uint s.mlen ≠ 0 ∧ 0 < sint s.srate ∧ 0 < sint s.f0 ∧ 0 < sint s.f1 ∧
      (v = .explicit → 0 < sint s.dur) ∧ uint s.mlen ≤ cfg.msgMax ∧ encodeTotal v s ≤ cfg.sampMax := by
  unfold encodeCheck at h
  split_ifs at h with h1 h2 h3 h4 h5 h6 h7
  exact ⟨h1, not_le.1 h2, not_le.1 h3, not_le.1 h4, fun hv => not_le.1 fun hd => h5 ⟨hv, hd⟩,
    not_lt.1 h6, not_lt.1 h7⟩

/-- Past its checks a decode has a rate of at least 10, the waveform's rate, and its result fits. -/
theorem decodeCheck_none (cfg : Config S) (s : Block S) (h : decodeCheck cfg s = none) :
    10 ≤ sint s.srate ∧ 0 < sint s.f0 ∧ 0 < sint s.f1 ∧ uint s.slen ≤ cfg.sampMax ∧
      sint s.wrate = sint s.srate ∧ decodeCount s / 8 ≤ cfg.msgMax := by
  unfold decodeCheck at h
  split_ifs at h with h1 h2 h3 h4 h5 h6 h7
  exact ⟨not_lt.1 h2, not_le.1 h3, not_le.1 h4, not_lt.1 h5, not_not.1 h6, not_lt.1 h7⟩

@[simp] theorem waveform_length (num : Num S) (bits : List Bool) (T p : ℕ) (D f0 f1 : ℚ) :
    (waveform num bits T p D f0 f1).length = T := by
  simp [waveform]

@[simp] theorem normalizeWave_length (num : Num S) (w : List S) :
    (normalizeWave num w).length = w.length := by
  simp [normalizeWave]

@[simp] theorem encodeWave_length (cfg : Config S) (v : DurationRule) (s : Block S) :
    (encodeWave cfg v s).length = encodeTotal v s := by
  simp [encodeWave]

@[simp] theorem decodeBits_length (num : Num S) (xs : List S) (B p : ℕ) (sr f0 f1 : ℚ) :
    (decodeBits num xs B p sr f0 f1).length = B := by
  simp [decodeBits]

@[simp] theorem deserialize_length (bits : List Bool) : (deserialize bits).length = bits.length / 8 := by
  simp [deserialize]

@[simp] theorem decodeBytes_length [Inhabited S] (cfg : Config S) (s : Block S) :
    (decodeBytes cfg s).length = decodeCount s / 8 := by
  simp [decodeBytes]

/-! ### Turns -/

theorem pendingCommand_cases (s : State) :
    s.pend = 1#32 ∧ pendingCommand s = some .encd ∨ s.pend = 2#32 ∧ pendingCommand s = some .encx ∨
      s.pend = 3#32 ∧ pendingCommand s = some .dec ∨
      (s.pend ≠ 1#32 ∧ s.pend ≠ 2#32 ∧ s.pend ≠ 3#32) ∧ pendingCommand s = none := by
  unfold pendingCommand decodeCmd
  split_ifs with h1 h2 h3
  · exact .inl ⟨h1, rfl⟩
  · exact .inr (.inl ⟨h2, rfl⟩)
  · exact .inr (.inr (.inl ⟨h3, rfl⟩))
  · exact .inr (.inr (.inr ⟨⟨h1, h2, h3⟩, rfl⟩))

theorem turn_nil (s : State) (h : s.inputs = []) : turn s = engineTurn s := by
  simp [turn, h]

theorem turn_host (s : State) (f : Frame) (rest : List Input) (h : s.inputs = .host f :: rest) :
    turn s = hostTurn f { s with inputs := rest } := by
  simp [turn, h, State.consume]

theorem turn_engine (s : State) (rest : List Input) (h : s.inputs = .engine :: rest) :
    turn s = engineTurn { s with inputs := rest } := by
  simp [turn, h, State.consume]

theorem turn_reset (s : State) (rest : List Input) (h : s.inputs = .reset :: rest) :
    turn s = .next (({ s with inputs := rest } : State).onBlock Block.resetEvent) := by
  simp [turn, h, State.consume]

/-- A run takes its first step, then the rest. -/
theorem coreRun_next (M : Host.Core) (k : ℕ) (s t : M.State) (h : M.step s = .next t) :
    M.run (k + 1) s = M.run k t := by
  simp [Host.Core.run, h]

theorem run_next (k : ℕ) (s t : State) (h : step s = .next t) :
    Host.Core.run core (k + 1) s = Host.Core.run core k t := coreRun_next core k s t h

end Sys2Proof.Machine
end

