-- ==== Sys2Proof/Laws/PerInstr.lean ====
section
/-! SUPPORT. Per-instruction facts about the encoding, one lemma per constructor. -/

namespace Sys2Proof

/-- How many bits the encoded form has: 32 for a command word; for an access 3 bits of direction and space,
the index, and for a write the cell's value (30_encoding.md R91, R106). -/
def Encoded.size : Encoded → ℕ
  | .cmdWord _ => 32
  | .access f => f.bits.length

theorem bitsOf_length (n v : ℕ) : (bitsOf n v).length = n := by
  induction n with
  | zero => rfl
  | succ n ih => simp [bitsOf, ih]

/-- The number of bits each instruction takes under a binding. -/
def Instr.size (b : Binding) : Instr → ℕ
  | .encd => 32
  | .encx => 32
  | .dec => 32
  | .reservedCmd _ => 32
  | .rdReg _ => 3 + b.idxBits
  | .rdMsg _ => 3 + b.idxBits
  | .rdSmp _ => 3 + b.idxBits
  | .wrReg _ _ => 3 + b.idxBits + 32
  | .wrCmd _ => 3 + b.idxBits + 32
  | .wrMsg _ _ => 3 + b.idxBits + 8
  | .wrSmp _ x => 3 + b.idxBits + x.width

/-- Encoded size: the encoding has exactly the bits its format gives it. -/
def Laws.EncodedSize.Statement (i : Instr) : Prop := ∀ b, (encode b i).size = i.size b

theorem Laws.EncodedSize.encd : Laws.EncodedSize.Statement .encd := fun _ => rfl

theorem Laws.EncodedSize.encx : Laws.EncodedSize.Statement .encx := fun _ => rfl

theorem Laws.EncodedSize.dec : Laws.EncodedSize.Statement .dec := fun _ => rfl

theorem Laws.EncodedSize.reservedCmd (c : Word) : Laws.EncodedSize.Statement (.reservedCmd c) := fun _ => rfl

theorem Laws.EncodedSize.rdReg (i : ℕ) : Laws.EncodedSize.Statement (.rdReg i) := fun b => by
  simp [encode, Encoded.size, Instr.size, bitsOf_length]; omega

theorem Laws.EncodedSize.rdMsg (i : ℕ) : Laws.EncodedSize.Statement (.rdMsg i) := fun b => by
  simp [encode, Encoded.size, Instr.size, bitsOf_length]; omega

theorem Laws.EncodedSize.rdSmp (i : ℕ) : Laws.EncodedSize.Statement (.rdSmp i) := fun b => by
  simp [encode, Encoded.size, Instr.size, bitsOf_length]; omega

theorem Laws.EncodedSize.wrReg (i : ℕ) (v : Word) : Laws.EncodedSize.Statement (.wrReg i v) := fun b => by
  simp [encode, Encoded.size, Instr.size, bitsOf_length]; omega

theorem Laws.EncodedSize.wrCmd (c : Word) : Laws.EncodedSize.Statement (.wrCmd c) := fun b => by
  simp [encode, Encoded.size, Instr.size, bitsOf_length]; omega

theorem Laws.EncodedSize.wrMsg (i : ℕ) (v : Byte) : Laws.EncodedSize.Statement (.wrMsg i v) := fun b => by
  simp [encode, Encoded.size, Instr.size, bitsOf_length]; omega

theorem Laws.EncodedSize.wrSmp (i : ℕ) (x : CellWord) : Laws.EncodedSize.Statement (.wrSmp i x) := fun b => by
  simp [encode, Encoded.size, Instr.size, bitsOf_length]; omega

end Sys2Proof
end

