-- ==== Sys2Proof/Machine/Bus.lean ====
section
/-! DEFINITION. The suggested byte binding of 20_memory.md R82, as an adapter in front of the host port. It
is not normative and no other rule depends on it, so the step does not go through it (log 18). -/

namespace Sys2Proof.Machine

variable {S : Type}

/-- Where a platform put the block (20_memory.md R82): `BASE`, and the offset of the SMP region from it. -/
structure BusLayout where
  base : ℕ
  smpOffset : ℕ
deriving DecidableEq, Repr

/-- A byte-addressed bus access of `size` bytes. A write carries its byte lanes, the lane of the lowest address
first. -/
structure BusAccess where
  addr : ℕ
  size : ℕ
  data : Option (List Byte)
deriving DecidableEq, Repr

/-- The number byte lanes carry: little-endian, the lane of the lowest address least significant
(20_memory.md R82). -/
def lanesValue : List Byte → ℕ
  | [] => 0
  | b :: rest => b.toNat + 256 * lanesValue rest

/-- The `n` byte lanes of a number, little-endian (20_memory.md R82). -/
def lanesOf : ℕ → ℕ → List Byte
  | 0, _ => []
  | n + 1, v => BitVec.ofNat 8 v :: lanesOf n (v / 256)

/-- `NUM.W / 8`, the bytes of an SMP cell; a record without a bus coding, or whose cell is no whole number of bytes,
has no SMP region (20_memory.md R82; log 18). -/
def busCellBytes (num : Num S) : Option ℕ :=
  match num.coding with
  | none => none
  | some c => if 0 < c.W ∧ c.W % 8 = 0 then some (c.W / 8) else none

/-- The cell a bus address names, with the bytes a whole-cell access of it has: REG cell `r` at `BASE + 4 r`, MSG cell
`i` at `BASE + 0x1000 + 4 i`, SMP cell `n` in its region (20_memory.md R82). -/
def busCell (cfg : Config S) (l : BusLayout) (addr : ℕ) : Option (Space × ℕ × ℕ) :=
  if addr < l.base then none
  else
    let off := addr - l.base
    if off % 4 = 0 ∧ off / 4 ≤ topIndex cfg .reg then some (.reg, off / 4, 4)
    else if 0x1000 ≤ off ∧ off % 4 = 0 ∧ (off - 0x1000) / 4 ≤ topIndex cfg .msg then
      some (.msg, (off - 0x1000) / 4, 4)
    else
      match busCellBytes cfg.num with
      | none => none
      | some n =>
        if l.smpOffset ≤ off ∧ (off - l.smpOffset) % n = 0 ∧ (off - l.smpOffset) / n ≤ topIndex cfg .smp then
          some (.smp, (off - l.smpOffset) / n, n)
        else none

/-- A REG or MSG cell is one word of the bus, accessed naturally aligned: the bus address itself is a multiple of 4,
wherever `BASE` is (20_memory.md R69, R82; for MSG log 18). No rule asks alignment of an SMP cell. -/
def busAligned (sp : Space) (addr : ℕ) : Bool :=
  match sp with
  | .reg => addr % 4 == 0
  | .msg => addr % 4 == 0
  | .smp => true

/-- The write of the lanes' value to a cell: bits 31:8 of a message word are ignored, a sample's word is as many bits
as the lanes carry. -/
def busWrite (sp : Space) (i : ℕ) (lanes : List Byte) : Instr :=
  match sp with
  | .reg =>
    if i = 0 then .wrCmd (BitVec.ofNat 32 (lanesValue lanes)) else .wrReg i (BitVec.ofNat 32 (lanesValue lanes))
  | .msg => .wrMsg i (BitVec.ofNat 8 (lanesValue lanes))
  | .smp => .wrSmp i ⟨8 * lanes.length, BitVec.ofNat (8 * lanes.length) (lanesValue lanes)⟩

/-- The host access a bus access makes; `none` is a `HostFault`: anything that is not one whole cell, naturally
aligned, all of its lanes present (20_memory.md R69, R82). -/
def busInstr (cfg : Config S) (l : BusLayout) (a : BusAccess) : Option Instr :=
  match busCell cfg l a.addr with
  | none => none
  | some (sp, i, n) =>
    if a.size = n ∧ busAligned sp a.addr = true then
      match a.data with
      | none => some (readOf sp i)
      | some lanes => if lanes.length = n then some (busWrite sp i lanes) else none
    else none

/-- The byte lanes of a response: a register in four, a message byte in bits 7:0 of a word whose bits 31:8 read 0, a
sample as its coded word (20_memory.md R62, R82). -/
def busReadLanes (num : Num S) (r : Response S) : Option (List Byte) :=
  match r with
  | .word v => some (lanesOf 4 v.toNat)
  | .byte b => some (lanesOf 4 b.toNat)
  | .sample x =>
    match wordOfSample num x with
    | none => none
    | some w => some (lanesOf (w.width / 8) w.bits.toNat)
  | _ => none

/-- A bus access performed by the machine, under the machine's own parameters. -/
def busTurn (l : BusLayout) (a : BusAccess) (s : State) : Host.Outcome State Fault Refusal :=
  match busInstr Config.chip l a with
  | some i => exec i s
  | none => .next (s.onBlock (Block.respond .hostFault))

end Sys2Proof.Machine
end

