-- ==== Sys2Proof/Machine/Script.lean ====
section
/-! DEFINITION. The host-script notation of 30_encoding.md R105 as expansions into accesses. It is a
notation for host programs, not an instruction set (92_eei_decisions.md D38): `WAIT` repeats the read of
`STATUS` until bit 0 of the value read is 0, so its number of reads belongs to the run, and `EXPECT` is no
access. -/

namespace Sys2Proof.Machine

/-- The register numbers `no(reg)` (10_state.md R21). -/
inductive RegName where
  | cmd
  | status
  | srate
  | wrate
  | f0
  | f1
  | dur
  | mlen
  | slen
  | nbits
  | spb
deriving DecidableEq, Repr

/-- `no(reg)` (10_state.md R21). -/
def regNumber : RegName → ℕ
  | .cmd => 0
  | .status => 1
  | .srate => 2
  | .wrate => 3
  | .f0 => 4
  | .f1 => 5
  | .dur => 6
  | .mlen => 7
  | .slen => 8
  | .nbits => 9
  | .spb => 10

/-- One line of a host script (30_encoding.md R105). -/
inductive ScriptLine where
  | wr (r : RegName) (v : Word)
  | rd (r : RegName)
  | wrm (i : ℕ) (b : Byte)
  | rdm (i : ℕ)
  /-- `WRS n, x`, the value in the bus coding. -/
  | wrs (n : ℕ) (x : CellWord)
  | rds (n : ℕ)
  /-- `CMD m`: write the code of the command. -/
  | cmdEncd
  | cmdEncx
  | cmdDec
  /-- `MSGSTR`: the bytes, then their count. -/
  | msgStr (text : List Byte)
  /-- `WAIT` in a run in which `polls` reads of `STATUS` are made. -/
  | wait (polls : ℕ)
deriving DecidableEq, Repr

/-- `MemWrite(REG, r, v)`: register 0 is `CMD`. -/
def regWriteInstr (r : ℕ) (v : Word) : Instr := if r = 0 then .wrCmd v else .wrReg r v

/-- The writes `WRM i, byte_i`, from cell `i` on. -/
def messageWrites (i : ℕ) (text : List Byte) : List Instr :=
  match text with
  | [] => []
  | b :: rest => .wrMsg i b :: messageWrites (i + 1) rest

/-- The accesses a line expands to (30_encoding.md R105). -/
def expandLine (line : ScriptLine) : List Instr :=
  match line with
  | .wr r v => [regWriteInstr (regNumber r) v]
  | .rd r => [.rdReg (regNumber r)]
  | .wrm i b => [.wrMsg i b]
  | .rdm i => [.rdMsg i]
  | .wrs n x => [.wrSmp n x]
  | .rds n => [.rdSmp n]
  | .cmdEncd => [.wrCmd 1#32]
  | .cmdEncx => [.wrCmd 2#32]
  | .cmdDec => [.wrCmd 3#32]
  | .msgStr text => messageWrites 0 text ++ [.wrReg 7 (BitVec.ofNat 32 text.length)]
  | .wait polls => List.replicate polls (.rdReg 1)

/-- The inputs that perform an access, under the binding `b`. -/
def accessInput (b : Binding) (i : Instr) : Option Input :=
  match encode b i with
  | .access f => some (.host f)
  | .cmdWord _ => none

/-- A host script as inputs (log 1). -/
def scriptInputs (b : Binding) (script : List ScriptLine) : List Input :=
  (script.flatMap expandLine).filterMap (accessInput b)

end Sys2Proof.Machine
end

