-- ==== Sys2Proof/Tests/Slice0.lean ====
section
/-! SUPPORT. Tests against the spec's own tables and vectors (95_test_vectors.md), the smoke test of
`wellFormed`, and for each statement with hypotheses a witness that meets them. Expected values are the
spec's; words are written out from 30_encoding.md R92, R106. -/

namespace Sys2Proof.Tests

open Sys2Proof.Machine

/-! ## Well-formedness: one ill-formed term for each check -/

theorem test_wf_reserved_encd : (Instr.reservedCmd 1#32).wellFormed tableBinding = false := by decide
theorem test_wf_reserved_encx : (Instr.reservedCmd 2#32).wellFormed tableBinding = false := by decide
theorem test_wf_reserved_dec : (Instr.reservedCmd 3#32).wellFormed tableBinding = false := by decide
theorem test_wf_rdReg : (Instr.rdReg 16).wellFormed tableBinding = false := by decide
theorem test_wf_rdMsg : (Instr.rdMsg 16).wellFormed tableBinding = false := by decide
theorem test_wf_rdSmp : (Instr.rdSmp 16).wellFormed tableBinding = false := by decide
theorem test_wf_wrReg_cmd : (Instr.wrReg 0 5#32).wellFormed tableBinding = false := by decide
theorem test_wf_wrReg : (Instr.wrReg 16 5#32).wellFormed tableBinding = false := by decide
theorem test_wf_wrMsg : (Instr.wrMsg 16 5#8).wellFormed tableBinding = false := by decide
theorem test_wf_wrSmp : (Instr.wrSmp 16 ⟨1, 0#1⟩).wellFormed tableBinding = false := by decide

/-! ## Decoding: every constructor from a word written out from the spec's encoding -/

theorem test_decode_encd : decodeTableWord 32 0x00000001 = some .encd := by decide
theorem test_decode_encx : decodeTableWord 32 0x00000002 = some .encx := by decide
theorem test_decode_dec : decodeTableWord 32 0x00000003 = some .dec := by decide
/-- V13: bits 31:8 are decoded. -/
theorem test_decode_reserved : decodeTableWord 32 0x00000101 = some (.reservedCmd 0x101#32) := by decide
theorem test_decode_rdReg : decodeTableWord 8 0b00001010 = some (.rdReg 10) := by decide
theorem test_decode_rdMsg : decodeTableWord 8 0b00010011 = some (.rdMsg 3) := by decide
theorem test_decode_rdSmp : decodeTableWord 8 0b00101001 = some (.rdSmp 9) := by decide
/-- `1 00 0100` and the word 0x000032C8 (program P4, line 1). -/
theorem test_decode_wrReg :
    decodeTableWord 40 0b100010000000000000000000011001011001000 = some (.wrReg 4 0x32C8#32) := by decide
/-- `1 00 0000` and the word 0x00000003. -/
theorem test_decode_wrCmd :
    decodeTableWord 40 0b100000000000000000000000000000000000011 = some (.wrCmd 3#32) := by decide
theorem test_decode_wrMsg : decodeTableWord 16 0b101001101111010 = some (.wrMsg 3 0x7A#8) := by decide
theorem test_decode_wrSmp : decodeTableWord 8 0b11000101 = some (.wrSmp 2 ⟨1, 1#1⟩) := by decide
theorem test_decode_no_space :
    decodeFrame ⟨tableBinding, [false, true, true, false, false, false, false]⟩ = .error .noSuchSpace := by rfl
theorem test_decode_short : decodeFrame ⟨tableBinding, [false, false, false, true]⟩ = .error .tooShort := by rfl
theorem test_decode_long :
    decodeFrame ⟨tableBinding, [false, false, false, true, false, false, false, true]⟩ =
      .error .wrongLength := by rfl

/-! ## Arithmetic: 95_test_vectors.md 2.1 to 2.5 -/

theorem test_serialize_Hi :
    serialize [0x48#8, 0x69#8] =
      [false, true, false, false, true, false, false, false, false, true, true, false, true, false, false, true] := by
  decide

/-- `0100000101` gives 41 and drops `01`. -/
theorem test_deserialize_drops :
    deserialize [false, true, false, false, false, false, false, true, false, true] = [0x41#8] := by decide

theorem test_rhe : rhe (5 / 2) = 2 ∧ rhe (7 / 2) = 4 ∧ rhe (1 / 2) = 0 ∧ rhe (44 / 5) = 9 ∧
    rhe (499 / 1000) = 0 ∧ rhe (501 / 1000) = 1 := by decide +kernel

theorem test_classify : classify 440 880 650 = false ∧ classify 440 880 660 = true ∧
    classify 440 880 22050 = true ∧ classify 880 440 0 = true ∧ classify (toneHz 10500#32) 20 15 = false := by
  decide +kernel

theorem test_peakHz : peakHz 3 8 80 = 30 ∧ peakHz 5 8 80 = 30 ∧ peakHz 4 11 100 = 400 / 11 ∧
    peakHz 4366 4410 44100 = 440 ∧ peakHz 0 1 10 = 0 := by decide +kernel

/-- The tables 2.2 and 2.3: rows `1103 at 44105`, `25 ms at 100`, `89 at 100`, `100 at 19`. -/
theorem test_planners :
    encodeTotal .derived { (Block.reset : Block Sample) with mlen := 1103#32, srate := 44105#32 } = 38918252 ∧
      encodeSpb .derived { (Block.reset : Block Sample) with mlen := 1103#32, srate := 44105#32 } = 4410 ∧
      encodeTotal .explicit { (Block.reset : Block Sample) with mlen := 1#32, srate := 100#32, dur := 25#32 } = 2 ∧
      decodeCount { (Block.reset : Block Sample) with slen := 89#32, srate := 100#32 } = 8 ∧
      decodeSpb { (Block.reset : Block Sample) with slen := 89#32, srate := 100#32 } = 11 ∧
      decodeCount { (Block.reset : Block Sample) with slen := 100#32, srate := 19#32 } = 100 ∧
      decodeSpb { (Block.reset : Block Sample) with slen := 7#32, srate := 80#32 } = 0 := by decide +kernel

/-! ## A small numerics record with `P-NORM` and `P-PEAK`: a sample names its phase -/

/-- The sample of a phase: a nonzero code for the fractional part of the turns. -/
def phaseSample (q : ℚ) : Sample := ⟨1 + Nat.pair (Int.fract q).num.natAbs (Int.fract q).den⟩

/-- Every nonzero sample denotes 1; the peak bin is read off the second sample's phase. -/
noncomputable def testNum : Num Sample where
  zero := ⟨0⟩
  sin2pi := phaseSample
  absmax xs := if xs.any (fun x => x.name != 0) then ⟨1⟩ else ⟨0⟩
  isZero x := x.name == 0
  div x _ := x
  peakBin xs :=
    ((List.range xs.length).find? fun (k : ℕ) => decide (xs[1]? = some (phaseSample ((k : ℚ) / xs.length)))).getD 0
  real x := if x.name = 0 then some 0 else some 1
  coding := some ⟨16, fun x => BitVec.ofNat 16 x.name, fun w => ⟨w.toNat⟩⟩

theorem phaseSample_inj (p q : ℚ) (h : phaseSample p = phaseSample q) : Int.fract p = Int.fract q := by
  have h1 := congrArg Sample.name h
  simp only [phaseSample, Nat.add_left_cancel_iff, Nat.pair_eq_pair] at h1
  have hp := Rat.num_nonneg.mpr (Int.fract_nonneg p)
  have hq := Rat.num_nonneg.mpr (Int.fract_nonneg q)
  exact Rat.ext (by omega) h1.2

theorem testNum_absmax (w : List Sample) (h : testNum.isZero (testNum.absmax w) = false) :
    ∃ x ∈ w, x.name ≠ 0 := by
  by_contra hc
  push Not at hc
  have : w.any (fun x => x.name != 0) = false := by
    rw [List.any_eq_false]; intro x hx; simp [hc x hx]
  simp only [testNum, this] at h
  simp at h

theorem testNum_PNorm : PNorm testNum := by
  intro w h
  refine ⟨fun x _ => ?_, ?_, ?_⟩
  · by_cases hx : x.name = 0
    · exact ⟨0, by simp [testNum, hx], by norm_num, by norm_num, fun a ha => by
        simp only [testNum, hx, if_true, Option.some.injEq] at ha; rw [ha]⟩
    · exact ⟨1, by simp [testNum, hx], by norm_num, by norm_num, fun a ha => by
        simp only [testNum, hx, if_false, Option.some.injEq] at ha; rw [ha]⟩
  · obtain ⟨x, hx, h0⟩ := testNum_absmax w h
    exact ⟨x, hx, Or.inl (by simp [testNum, h0])⟩
  · simp [testNum]

theorem testNum_PPeak : PPeak testNum := by
  intro L k0 c M theta xs hL hk hk2 _ _ hth hxs _
  subst hxs
  left
  obtain ⟨z, hz⟩ := hth 1 (by omega)
  have hLq : (0 : ℚ) < L := by exact_mod_cast (by omega : 0 < L)
  have fr : ∀ k : ℕ, k < L → Int.fract ((k : ℚ) / L) = k / L := by
    intro k hkL
    rw [Int.fract_eq_self]
    exact ⟨by positivity, by rw [div_lt_one hLq]; exact_mod_cast hkL⟩
  have f1 : Int.fract (theta 1) = k0 / L := by
    rw [hz, Int.fract_add_intCast]; simpa using fr k0 (by omega)
  have e1 : ((List.range L).map fun m => testNum.div (testNum.sin2pi (theta m)) M)[1]? =
      some (phaseSample (theta 1)) := by
    rw [List.getElem?_map, List.getElem?_range (by omega)]; rfl
  have key : (List.range L).find?
      (fun (k : ℕ) => decide (some (phaseSample (theta 1)) = some (phaseSample ((k : ℚ) / L)))) = some k0 := by
    rw [List.find?_range_eq_some]
    refine ⟨?_, by simp; omega, ?_⟩
    · simp [phaseSample, f1, fr k0 (by omega)]
    · intro j hj
      simp only [Bool.not_eq_true', decide_eq_false_iff_not, Option.some.injEq]
      intro hc
      have := phaseSample_inj _ _ hc
      rw [f1, fr j (by omega), div_left_inj' (ne_of_gt hLq)] at this
      have : k0 = j := by exact_mod_cast this
      omega
  change (((List.range _).find? _).getD 0) = k0
  simp only [List.length_map, List.length_range]
  rw [e1, key]; rfl

/-- The suggested capacities of 00_scope.md R11. -/
noncomputable def testCfg : Config Sample := ⟨255, 16777215, testNum⟩

/-! ## The machine: V1, V3, V8, V13, V14, V15 -/

/-- The start state of V1 and, but for the waveform, of V13. -/
def v1Start : Block Sample :=
  { (Block.reset : Block Sample) with
    srate := 80#32, wrate := 80#32, f0 := 10000#32, f1 := 20000#32, dur := 800#32, mlen := 1#32
    slen := 64#32, msg := [(0, 0x41#8)] }

/-- The machine at that start, with nothing to come. -/
def v1State : State where
  toBlock := v1Start
  inputs := []

/-- V1's waveform in SMP, in the samples of `testNum`. -/
def v1Wave : Memory Sample :=
  Memory.block 0 ((List.range 64).map fun (n : ℕ) =>
    phaseSample (if n / 8 = 1 ∨ n / 8 = 7 then (n : ℚ) / 4 else (n : ℚ) / 8))

theorem test_reset_memory_wf : Memory.wf State.reset.msg = true ∧ Memory.wf State.reset.smp = true := by decide

/-- V1. -/
theorem test_encd_V1 : encodeStep testCfg .derived v1Start =
    { v1Start with
      smp := v1Wave, slen := 64#32, wrate := 80#32, nbits := 8#32, spb := 8#32, status := 2#32, draws := 1 } := by
  decide +kernel

/-- V13, rows of `ENCD`, and U7's capacity row. -/
theorem test_encd_V13 :
    (encodeStep testCfg .derived { v1Start with mlen := 0#32, srate := 0xFFFFFFFF#32 }).status = 0x1106#32 ∧
      (encodeStep testCfg .derived { v1Start with srate := 0xFFFFFFFF#32 }).status = 0x1206#32 ∧
      (encodeStep testCfg .derived { v1Start with f0 := 0#32, f1 := 0#32 }).status = 0x1306#32 ∧
      (encodeStep testCfg .derived { v1Start with f1 := 0xFFFFFFFB#32 }).status = 0x1406#32 ∧
      (encodeStep testCfg .derived { v1Start with mlen := 257#32 }).status = 0x5106#32 ∧
      (encodeStep testCfg .derived { v1Start with mlen := 256#32, srate := 100000#32 }).status = 0x5206#32 ∧
      (encodeStep testCfg .derived { v1Start with srate := 8#32, wrate := 8#32 }).status = 0x3006#32 := by
  decide +kernel

/-- The start state of V8, whose waveform has a tail: samples 96 to 99 of 100. -/
def v8Start : Block Sample := { v1Start with srate := 100#32, dur := 1000#32 }

/-- V8's plan, and its tail of zeros. -/
theorem test_encx_V8 :
    let t := encodeStep testCfg .explicit v8Start
    t.slen = 100#32 ∧ t.nbits = 8#32 ∧ t.spb = 12#32 ∧ t.status = 2#32 ∧
      Memory.read t.smp 96 = some ⟨0⟩ ∧ Memory.read t.smp 95 = some (phaseSample (20 * 95 / 100)) := by
  decide +kernel

/-- V13, rows of `ENCX`; 40_encode.md R121 (`T = 0`). -/
theorem test_encx_V13 :
    (encodeStep testCfg .explicit { v1Start with srate := 0#32 }).status = 0x1206#32 ∧
      (encodeStep testCfg .explicit { v1Start with dur := 0xFFFFFC18#32 }).status = 0x1506#32 ∧
      (encodeStep testCfg .explicit { v1Start with srate := 100#32, dur := 5#32 }).status = 0x3006#32 := by
  decide +kernel

/-- V3. -/
theorem test_dec_V3 : decodeStep testCfg { v1Start with mlen := 0#32, msg := [], smp := v1Wave } =
    { v1Start with
      smp := v1Wave, nbits := 8#32, spb := 8#32, status := 2#32, draws := 64 } := by decide +kernel

/-- V13, rows of `DEC`. -/
theorem test_dec_V13 :
    (decodeStep testCfg { v1Start with srate := 0#32 }).status = 0x1206#32 ∧
      (decodeStep testCfg { v1Start with srate := 5#32, wrate := 7#32 }).status = 0x1606#32 ∧
      (decodeStep testCfg { v1Start with f0 := 0#32, wrate := 81#32 }).status = 0x1306#32 ∧
      (decodeStep testCfg { v1Start with f1 := 0#32 }).status = 0x1406#32 ∧
      (decodeStep testCfg { v1Start with slen := 16777217#32, wrate := 81#32 }).status = 0x5206#32 ∧
      (decodeStep testCfg { v1Start with srate := 8000#32, wrate := 44100#32 }).status = 0x2006#32 ∧
      (decodeStep testCfg { v1Start with srate := 10#32, wrate := 10#32, slen := 2056#32 }).status =
        0x5106#32 := by decide +kernel

/-- V13, reserved words; V14, a reserved word while busy. -/
theorem test_reservedCmd :
    exec (.reservedCmd 0x101#32) v1State = .next { v1State with status := 0x4006#32, port := .ok } ∧
      exec (.reservedCmd 7#32) (v1State.onBlock (accept 1#32)) = .next { v1State.onBlock (accept 1#32) with port := .ok } := by
  constructor <;> rfl

/-- V14, reads of registers while idle. -/
theorem test_rdReg_idle :
    exec (.rdReg 2) State.reset = .next { State.reset with port := .word 0x0000AC44#32 } ∧
      exec (.rdReg 0) v1State = .next { v1State with port := .word 0#32 } ∧
      exec (.rdReg 11) v1State = .next { v1State with port := .hostFault } := by
  refine ⟨?_, ?_, ?_⟩ <;> rfl

/-- V14, reads of registers while busy. -/
theorem test_rdReg_busy :
    exec (.rdReg 1) (v1State.onBlock (accept 1#32)) = .next { v1State.onBlock (accept 1#32) with port := .word 1#32 } ∧
      exec (.rdReg 2) (v1State.onBlock (accept 1#32)) = .next { v1State.onBlock (accept 1#32) with port := .word 80#32 } := by
  constructor <;> rfl

theorem test_rdMsg : (memRead testCfg .msg 0 v1Start).port = .byte 0x41#8 ∧
    (memRead testCfg .msg 256 v1Start).port = .hostFault := by decide +kernel

theorem test_rdSmp : (memRead testCfg .smp 9 { v1Start with smp := v1Wave }).port = .sample (phaseSample (1 / 4)) ∧
    (memRead testCfg .smp 16777216 v1Start).port = .hostFault := by decide +kernel

/-- V14, writes of registers while idle. -/
theorem test_wrReg_idle :
    exec (.wrReg 1 0xFFFFFFFF#32) v1State = .next { v1State with port := .ok } ∧
      exec (.wrReg 4 0xFFFFFFFF#32) v1State = .next { v1State with f0 := 0xFFFFFFFF#32, port := .ok } ∧
      exec (.wrReg 11 5#32) v1State = .next { v1State with port := .hostFault } := by
  refine ⟨?_, ?_, ?_⟩ <;> rfl

/-- V14, a write while busy. -/
theorem test_wrReg_busy :
    exec (.wrReg 4 5#32) (v1State.onBlock (accept 1#32)) = .next { v1State.onBlock (accept 1#32) with port := .ok } := by rfl

/-- Program P4: line 3, then line 6. -/
theorem test_wrCmd :
    exec (.wrCmd 1#32) v1State = .next { v1State with pend := 1#32, status := 1#32, port := .ok } ∧
      exec (.wrCmd 3#32) (v1State.onBlock (accept 1#32)) = .next { v1State.onBlock (accept 1#32) with port := .ok } := by
  constructor <;> rfl

/-- V14: `(W, MSG, 3, 0x7A)`. -/
theorem test_wrMsg : memWrite testCfg .msg 3 (storeMsg 3 0x7A#8) v1Start =
    { v1Start with msg := [(0, 0x41#8), (3, 0x7A#8)], port := .ok } := by decide +kernel

/-- A word of 16 bits is one cell of `testNum`, a word of 15 is none (20_memory.md R62, R69). -/
theorem test_wrSmp :
    memWriteWord testCfg 2 ⟨16, 7#16⟩ v1Start = { v1Start with smp := [(2, ⟨7⟩)], port := .ok } ∧
      memWriteWord testCfg 2 ⟨15, 7#15⟩ v1Start = { v1Start with port := .hostFault } := by decide +kernel

/-- `(W, SMP, SAMP_MAX, s)`; the coded word of a value. -/
theorem test_wrSmp_outside :
    memWriteWord testCfg 16777216 ⟨16, 7#16⟩ v1Start = { v1Start with port := .hostFault } ∧
      wordOfSample testCfg.num ⟨7⟩ = some ⟨16, 7#16⟩ := by decide +kernel

/-- V15: the first command after reset. -/
theorem test_reset_V15 :
    step (State.reset.withFetchWord 32 2) = .next { State.reset with status := 0x1106#32, pend := 2#32 } := by rfl

/-- A word of an access placed next is run by the very next step. -/
theorem test_fetch_access :
    step (State.reset.withFetchWord 8 0b00000100) =
      .next { State.reset with port := .word 0x0006B6C0#32 } := by rfl

/-- 30_encoding.md R105: `MSGSTR "Hi"` and `CMD DEC` (program P2, lines 4 and 13). -/
theorem test_script :
    [ScriptLine.msgStr [0x48#8, 0x69#8], .cmdDec].flatMap expandLine =
      [.wrMsg 0 0x48#8, .wrMsg 1 0x69#8, .wrReg 7 2#32, .wrCmd 3#32] := by decide

/-- 20_memory.md R82: `F0` at `BASE + 16`, MSG cell 3 at `BASE + 0x100C` with bits 31:8 ignored, the lowest address
least significant; half a word is no cell. -/
theorem test_bus_write :
    busInstr testCfg ⟨0x4000, 0x10000⟩ ⟨0x4010, 4, some [0x10#8, 0x27#8, 0#8, 0#8]⟩ = some (.wrReg 4 10000#32) ∧
      busInstr testCfg ⟨0x4000, 0x10000⟩ ⟨0x500C, 4, some [0x7A#8, 0x23#8, 1#8, 0#8]⟩ = some (.wrMsg 3 0x7A#8) ∧
      busInstr testCfg ⟨0x4000, 0x10000⟩ ⟨0x14004, 2, some [0x34#8, 0x12#8]⟩ = some (.wrSmp 2 ⟨16, 0x1234#16⟩) ∧
      busInstr testCfg ⟨0x4000, 0x10000⟩ ⟨0x4010, 2, some [0#8, 0#8]⟩ = none := by decide +kernel

/-- 20_memory.md R69, R82: with `BASE` no multiple of 4 no address of a register or message cell is naturally
aligned, so a word access there is a `HostFault`; within an aligned block so is a word access off its cell. -/
theorem test_bus_alignment :
    busInstr testCfg ⟨0x4002, 0x10000⟩ ⟨0x4012, 4, none⟩ = none ∧
      busInstr testCfg ⟨0x4002, 0x10000⟩ ⟨0x500E, 4, some [0x7A#8, 0#8, 0#8, 0#8]⟩ = none ∧
      busInstr testCfg ⟨0x4000, 0x10000⟩ ⟨0x4012, 4, none⟩ = none ∧
      busInstr testCfg ⟨0x4000, 0x10000⟩ ⟨0x4010, 4, none⟩ = some (.rdReg 4) := by decide +kernel

theorem test_bus_read :
    busInstr testCfg ⟨0x4000, 0x10000⟩ ⟨0x14004, 2, none⟩ = some (.rdSmp 2) ∧
      busInstr testCfg ⟨0x4000, 0x10000⟩ ⟨0x14005, 2, none⟩ = none ∧
      busReadLanes testCfg.num (.word 0x0006B6C0#32) = some [0xC0#8, 0xB6#8, 0x06#8, 0#8] ∧
      busReadLanes testCfg.num (.byte 0x41#8) = some [0x41#8, 0#8, 0#8, 0#8] ∧
      busReadLanes testCfg.num (.sample ⟨0x1234⟩) = some [0x34#8, 0x12#8] := by decide +kernel

/-! ## Witnesses: for each statement with hypotheses, a state and operands that meet them

Each theorem is named after its statement (Certificates/Slice0/Obligations.lean). Where a statement speaks of
every implementation, the witness is `testCfg`; where it speaks of `Config.chip`, only the bounds of 00_scope.md
R11 are used. -/

/-- A read of `STATUS`, as bits on the host port: `0 00 0001`. -/
def readStatusFrame : Frame := ⟨tableBinding, [false, false, false, false, false, false, true]⟩

/-- A pending encode, with a host read and the engine's turn to come. -/
def pendingState : State := { v1State.onBlock (accept 1#32) with inputs := [.host readStatusFrame, .engine] }

/-- A state in which both encodes pass their checks on every implementation, with fewer samples than bits. -/
def shortState : Block Sample := { v1Start with srate := 1#32, dur := 1#32 }

/-- The machine in that state. -/
def shortStateM : State where
  toBlock := shortState
  inputs := []

/-- A state in which `DEC` finds no whole bit, on every implementation. -/
def shortDecode : Block Sample := { v1Start with srate := 20#32, wrate := 20#32, slen := 1#32, nbits := 5#32 }

/-- The machine in that state. -/
def shortDecodeM : State where
  toBlock := shortDecode
  inputs := []

theorem chip_zero_in : 0 < Config.chip.msgMax ∧ 0 < Config.chip.sampMax :=
  ⟨(msgMax_bounds _).1, (sampMax_bounds _).1⟩

theorem encodeTotal_shortState :
    encodeTotal .derived shortState = 1 ∧ encodeTotal .explicit shortState = 0 := by decide +kernel

theorem encodeCheck_shortState (cfg : Config Sample) (v : DurationRule) : encodeCheck cfg v shortState = none := by
  have h1 := (msgMax_bounds cfg).1
  have h2 := (sampMax_bounds cfg).1
  have e := encodeTotal_shortState
  have hm : uint shortState.mlen = 1 := by decide
  have h3 : ¬ cfg.msgMax < 1 := by omega
  have h4 : ¬ cfg.sampMax < 1 := by omega
  have hs : ¬ sint shortState.srate ≤ 0 := by decide
  have hf : ¬ sint shortState.f0 ≤ 0 := by decide
  have hg : ¬ sint shortState.f1 ≤ 0 := by decide
  have hd : ¬ sint shortState.dur ≤ 0 := by decide
  cases v <;> simp [encodeCheck, e, hm, hs, hf, hg, hd, h3, h4]

theorem witness_ResetEventRestoresResetValues :
    { pendingState with inputs := [.reset, .engine] }.inputs = .reset :: [.engine] ∧ pendingState.busy = true := by
  decide

theorem witness_CommandDecodingComparesWholeWord :
    [0#32, 4#32, 0x101#32, 0xFFFFFFFF#32].all (fun c => c ≠ 1#32 ∧ c ≠ 2#32 ∧ c ≠ 3#32) = true := by decide

theorem witness_DecodeOfEncodeIsIdentity :
    ∀ i ∈ [Instr.encd, .encx, .dec, .reservedCmd 0#32, .reservedCmd 0xFFFFFFFF#32, .rdReg 15, .rdMsg 15, .rdSmp 0,
      .wrReg 1 0#32, .wrReg 15 0xFFFFFFFF#32, .wrCmd 1#32, .wrMsg 15 0xFF#8, .wrSmp 15 ⟨1, 1#1⟩, .wrSmp 0 ⟨64, 0xFFFFFFFFFFFFFFFF#64⟩],
      i.wellFormed tableBinding = true := by decide

theorem witness_AccessEncodingIsUnique :
    decodeFrame readStatusFrame = .ok (.rdReg 1) ∧
      decodeFrame ⟨⟨0⟩, [true, true, false, true, false]⟩ = .ok (.wrSmp 0 ⟨2, 2#2⟩) := by
  constructor <;> rfl

theorem witness_HostTurnRunsDecodedAccess :
    pendingState.inputs = .host readStatusFrame :: [.engine] ∧ decodeFrame readStatusFrame = .ok (.rdReg 1) := by
  constructor <;> rfl

theorem witness_EngineStepPerformsPendingCommand :
    [1#32, 2#32, 3#32].all (fun c => (v1State.onBlock (accept c)).busy = true ∧ (v1State.onBlock (accept c)).pend = c ∧
      (v1State.onBlock (accept c)).inputs = []) = true ∧
      { pendingState with inputs := [.engine] }.inputs = .engine :: [] ∧
      { v1State with inputs := [.engine] }.busy = false ∧ { v1State with inputs := [.engine] }.inputs = .engine :: [] := by
  decide

theorem witness_PlacedWordRunsNext :
    [0#32, 4#32, 0xFFFFFFFF#32].all (fun c => c ≠ 1#32 ∧ c ≠ 2#32 ∧ c ≠ 3#32) = true := by decide

theorem cells_v1Start : cellsInside Config.chip.msgTop.val v1State.msg ∧
    cellsInside Config.chip.sampTop.val v1State.smp := by
  refine ⟨⟨by decide, ?_⟩, by decide, ?_⟩
  · intro c hc
    have : c = (0, 0x41#8) := by simpa [v1State, v1Start] using hc
    simp [this]
  · intro c hc; simp [v1State, v1Start, Block.reset] at hc

theorem inv_pendingState : StateInv pendingState :=
  ⟨Or.inr (Or.inl rfl), fun _ => Or.inl rfl, cells_v1Start.1, cells_v1Start.2⟩

theorem witness_EveryStepKeepsStateInv :
    StateInv pendingState ∧
      step pendingState = .next { pendingState with inputs := [.engine], port := .word 1#32 } :=
  ⟨inv_pendingState, rfl⟩

theorem headDecodes_pendingState : headDecodes pendingState := by
  intro f rest h
  have : f = readStatusFrame := by simp [pendingState] at h; exact h.1.symm
  exact ⟨.rdReg 1, by rw [this]; rfl⟩

theorem witness_StepFromStateInvAnswersNext : StateInv pendingState ∧ headDecodes pendingState :=
  ⟨inv_pendingState, headDecodes_pendingState⟩

theorem witness_PendingCommandEnds :
    StateInv pendingState ∧ pendingState.busy = true ∧ inputsDecode pendingState := by
  refine ⟨inv_pendingState, by decide, ?_⟩
  intro f h
  have : f = readStatusFrame := by simpa [pendingState] using h
  exact ⟨.rdReg 1, by rw [this]; rfl⟩

theorem witness_HostCannotChangeBlockWhileBusy :
    pendingState.busy = true ∧ pendingState.inputs = .host readStatusFrame :: [.engine] ∧
      decodeFrame readStatusFrame = .ok (.rdReg 1) := ⟨by decide, rfl, rfl⟩

theorem witness_IdleRegisterReadReturnsRegister :
    v1State.busy = false ∧ legalStatus v1State.status ∧ { v1State with status := 0x5206#32 }.busy = false ∧
      legalStatus { v1State with status := 0x5206#32 }.status ∧ 10 < 11 :=
  ⟨by decide, Or.inl rfl, by decide, Or.inr (Or.inr ⟨11, rfl⟩), by decide⟩

/-- Written and unwritten, first, last and first outside. -/
theorem witness_IdleCellReadReturnsCell :
    v1State.busy = false ∧ 0 < Config.chip.msgMax ∧ Memory.read v1State.msg 0 = some 0x41#8 ∧
      State.reset.busy = false ∧ Config.chip.msgTop.val < Config.chip.msgMax ∧
      Memory.read State.reset.msg Config.chip.msgTop.val = none ∧
      0 < Config.chip.sampMax ∧ Memory.read { v1State with smp := [(0, ⟨7⟩)] }.smp 0 = some (⟨7⟩ : Sample) ∧
      Config.chip.sampTop.val < Config.chip.sampMax ∧
      Memory.read State.reset.smp Config.chip.sampTop.val = none ∧
      Config.chip.msgMax ≤ Config.chip.msgMax ∧ Config.chip.sampMax ≤ Config.chip.sampMax :=
  ⟨by decide, chip_zero_in.1, rfl, by decide, Nat.lt_succ_self _, rfl, chip_zero_in.2, rfl, Nat.lt_succ_self _, rfl,
    le_refl _, le_refl _⟩

theorem witness_BusyReadReturnsParametersOrFreeValues :
    pendingState.busy = true ∧ Config.chip.msgTop.val < Config.chip.msgMax ∧
      Config.chip.sampTop.val < Config.chip.sampMax := ⟨by decide, Nat.lt_succ_self _, Nat.lt_succ_self _⟩

theorem witness_AccessOutsideSpaceIsHostFault :
    10 < 11 ∧ Config.chip.msgMax ≤ Config.chip.msgMax ∧ Config.chip.sampMax ≤ Config.chip.sampMax :=
  ⟨by decide, le_refl _, le_refl _⟩

theorem witness_IdleRegisterWriteStores : v1State.busy = false ∧ 10 < 11 := by decide

theorem witness_CommandWriteDispatches :
    v1State.busy = false ∧ (0x101#32 ≠ 1#32 ∧ 0x101#32 ≠ 2#32 ∧ 0x101#32 ≠ 3#32) := by decide

theorem witness_ReservedCommandPostsUsageError :
    v1State.busy = false ∧ (0#32 ≠ 1#32 ∧ 0#32 ≠ 2#32 ∧ 0#32 ≠ 3#32) := by decide

theorem witness_IdleCellWriteStores :
    v1State.busy = false ∧ Config.chip.msgTop.val < Config.chip.msgMax ∧
      Config.chip.sampTop.val < Config.chip.sampMax ∧ (1 ≠ 0 ∧ Config.chip.msgMax ≤ Config.chip.msgMax) ∧
      Config.chip.sampMax ≤ Config.chip.sampMax :=
  ⟨by decide, Nat.lt_succ_self _, Nat.lt_succ_self _, ⟨by decide, le_refl _⟩, le_refl _⟩

theorem witness_WritesAreDroppedWhileBusy : pendingState.busy = true := by decide

/-- Each clause of the order of checks, at a boundary. -/
theorem witness_EncodeReportsFirstFailingCheck :
    { v1Start with mlen := 0#32 }.mlen = 0#32 ∧ v1Start.mlen ≠ 0#32 ∧
      { v1Start with srate := 0#32 }.srate.toInt ≤ 0 ∧ 0 < v1Start.srate.toInt ∧
      { v1Start with f0 := 0#32 }.f0.toInt ≤ 0 ∧ 0 < v1Start.f0.toInt ∧
      { v1Start with f1 := 0xFFFFFFFF#32 }.f1.toInt ≤ 0 ∧ 0 < v1Start.f1.toInt ∧
      { v1Start with dur := 0#32 }.dur.toInt ≤ 0 ∧ 0 < v1Start.dur.toInt ∧
      testCfg.msgMax < { v1Start with mlen := 257#32 }.mlen.toNat ∧
      { v1Start with mlen := 256#32 }.mlen.toNat ≤ testCfg.msgMax ∧
      testCfg.sampMax < rhe ((8 * 256 : ℕ) / 10 * ({ v1Start with srate := 100000#32 }.srate.toInt : ℚ)) ∧
      testCfg.sampMax <
        rhe (({ v1Start with dur := 0x7FFFFFFF#32 }.dur.toInt : ℚ) / 1000 * (v1Start.srate.toInt : ℚ)) := by
  decide +kernel

theorem witness_DecodeReportsFirstFailingCheck :
    { v1Start with srate := 0#32 }.srate.toInt ≤ 0 ∧
      (0 < { v1Start with srate := 9#32 }.srate.toInt ∧ { v1Start with srate := 9#32 }.srate.toInt < 10) ∧
      10 ≤ v1Start.srate.toInt ∧ { v1Start with f0 := 0#32 }.f0.toInt ≤ 0 ∧ 0 < v1Start.f0.toInt ∧
      { v1Start with f1 := 0#32 }.f1.toInt ≤ 0 ∧ 0 < v1Start.f1.toInt ∧
      testCfg.sampMax < { v1Start with slen := 16777217#32 }.slen.toNat ∧ v1Start.slen.toNat ≤ testCfg.sampMax ∧
      { v1Start with wrate := 81#32 }.wrate.toInt ≠ v1Start.srate.toInt ∧
      v1Start.wrate.toInt = v1Start.srate.toInt ∧
      testCfg.msgMax < { v1Start with slen := 16448#32 }.slen.toNat / (v1Start.srate.toInt.toNat / 10) / 8 := by
  decide +kernel

/-- `ENCD` and `DEC` after reset report an error. -/
theorem witness_ErrorChangesOnlyStatus :
    exec .encd State.reset = .next { State.reset with status := 0x1106#32 } ∧
      exec .encx State.reset = .next { State.reset with status := 0x1106#32 } ∧
      exec .dec { v1State with srate := 0#32 } = .next { v1State with srate := 0#32, status := 0x1206#32 } ∧
      allNumbers Config.chip.num (decodeSamples { v1Start with srate := 0#32 }) = true ∧
      errFlag 0x1106#32 = true ∧ errFlag 0x1206#32 = true :=
  ⟨rfl, rfl, rfl, rfl, rfl, rfl⟩

theorem witness_EncodeWithoutWindowsIsDegenerate (v : DurationRule) :
    encodeCheck Config.chip v shortStateM.toBlock = none ∧
      encodeTotal v shortStateM.toBlock < 8 * shortStateM.mlen.toNat := by
  refine ⟨encodeCheck_shortState _ _, ?_⟩
  have h := encodeTotal_shortState
  have : shortStateM.mlen.toNat = 1 := by decide
  have : shortStateM.toBlock = shortState := rfl
  cases v <;> simp_all

/-- V1, with windows; `SRATE = 8`, without. -/
theorem witness_EncdSynthesizesAndCommits :
    v1Start.mlen ≠ 0#32 ∧ 0 < v1Start.srate.toInt ∧ 0 < v1Start.f0.toInt ∧ 0 < v1Start.f1.toInt ∧
      v1Start.mlen.toNat ≤ testCfg.msgMax ∧ rhe ((8 : ℚ) / 10 * (v1Start.srate.toInt : ℚ)) ≤ testCfg.sampMax ∧
      rhe ((8 : ℚ) / 10 * (v1Start.srate.toInt : ℚ)) / 8 = 8 ∧ rhe ((8 : ℚ) / 10 * 8) / 8 = 0 := by decide +kernel

theorem witness_EncxSynthesizesAndCommits :
    v1Start.mlen ≠ 0#32 ∧ 0 < v1Start.srate.toInt ∧ 0 < v1Start.f0.toInt ∧ 0 < v1Start.f1.toInt ∧
      0 < v1Start.dur.toInt ∧ v1Start.mlen.toNat ≤ testCfg.msgMax ∧
      rhe ((v1Start.dur.toInt : ℚ) / 1000 * (v1Start.srate.toInt : ℚ)) ≤ testCfg.sampMax := by decide +kernel

theorem witness_EncodeFrame :
    (DurationRule.derived = .derived ∧ Instr.encd = .encd) ∧
      (DurationRule.explicit = .explicit ∧ Instr.encx = .encx) ∧
      encodeTotal .derived shortStateM.toBlock ≤ 1 ∧ { State.reset with status := 0x1106#32 }.status ≠ 2#32 :=
  ⟨by decide, by decide, by rw [show shortStateM.toBlock = shortState from rfl, encodeTotal_shortState.1], by decide⟩

theorem witness_EncdTotalIsNearestInteger :
    0 < { v1Start with srate := 44105#32 }.srate.toInt ∧ 8 * v1Start.mlen.toNat * 44105 % 10 = 0 := by decide

theorem witness_EncdClosedFormAtMultiplesOfTen :
    v1Start.mlen ≠ 0#32 ∧ 0 < 8 ∧ v1Start.srate.toInt = 10 * ((8 : ℕ) : ℤ) := by decide

theorem witness_RheIsNearestTiesToEven :
    (0 : ℚ) ≤ 5 / 2 ∧ |((2 : ℕ) : ℚ) - 5 / 2| = 1 / 2 ∧ Even 2 ∧ (0 : ℚ) ≤ 44 / 5 ∧
      |((9 : ℕ) : ℚ) - 44 / 5| < 1 / 2 := by decide +kernel

theorem witness_SerializerOrder : [0x48#8, 0x69#8][1]? = some 0x69#8 ∧ 0 < 8 ∧ 7 < 8 := by decide

/-- One window of 4 of 5 samples: the last sample of the window, and the tail. -/
theorem witness_ToneGeneratorFillsWindows :
    [true].length * 4 ≤ 5 ∧ [true][0]? = some true ∧ 3 < 4 ∧ [true].length * 4 ≤ 4 ∧ 4 < 5 := by decide

/-- A waveform without a tail, and one with: its first and its last tail sample. -/
theorem witness_NormalizedWaveformPeaksAtOne :
    PNorm testCfg.num ∧ encodeCheck testCfg .derived v1Start = none ∧
      (encodeStep testCfg .derived v1Start).status = 2#32 ∧
      encodeCheck testCfg .explicit v8Start = none ∧ (encodeStep testCfg .explicit v8Start).status = 2#32 ∧
      encodeBits v8Start * encodeSpb .explicit v8Start = 96 ∧
      (encodeStep testCfg .explicit v8Start).slen.toNat = 100 ∧
      testCfg.num.div testCfg.num.zero (testCfg.num.absmax (encodeWave testCfg .explicit v8Start)) =
        testCfg.num.zero :=
  ⟨testNum_PNorm, by decide +kernel, by rw [test_encd_V1], by decide +kernel, by decide +kernel, by decide +kernel,
    by decide +kernel, rfl⟩

theorem witness_CountsFitTheirRegisters :
    (encodeCheck testCfg .derived v1Start = none ∧ (encodeStep testCfg .derived v1Start).status = 2#32) ∧
      decodeCheck testCfg { v1Start with smp := v1Wave } = none ∧
      allNumbers testCfg.num (decodeSamples { v1Start with smp := v1Wave }) = true :=
  ⟨⟨by decide +kernel, by rw [test_encd_V1]⟩, by decide +kernel, by decide +kernel⟩

/-- Two states that differ in what an encode does not read. -/
theorem witness_EncodeDependsOnlyOnItsOperands :
    v1Start.srate = { v1Start with wrate := 7#32, slen := 9#32, smp := v1Wave }.srate ∧
      (∀ c < v1Start.mlen.toNat, ∃ b, Memory.read v1Start.msg c = some b ∧
        Memory.read { v1Start with wrate := 7#32, slen := 9#32, smp := v1Wave }.msg c = some b) ∧
      (encodeStep testCfg .derived v1Start).status = 2#32 := by
  refine ⟨rfl, fun c hc => ?_, by rw [test_encd_V1]⟩
  have h1 : v1Start.mlen.toNat = 1 := by decide
  have : c = 0 := by omega
  subst this
  exact ⟨0x41#8, rfl, rfl⟩

theorem witness_DecClassifiesAndCommits :
    10 ≤ v1Start.srate.toInt ∧ 0 < v1Start.f0.toInt ∧ 0 < v1Start.f1.toInt ∧ v1Start.slen.toNat ≤ testCfg.sampMax ∧
      v1Start.wrate.toInt = v1Start.srate.toInt ∧ 64 / 8 / 8 ≤ testCfg.msgMax ∧
      allNumbers testCfg.num (sampleValues { v1Start with smp := v1Wave } 64) = true := by decide +kernel

theorem witness_ShortDecodeGivesEmptyMessage :
    10 ≤ shortDecodeM.srate.toInt ∧ 0 < shortDecodeM.f0.toInt ∧ 0 < shortDecodeM.f1.toInt ∧
      shortDecodeM.slen.toNat ≤ Config.chip.sampMax ∧ shortDecodeM.wrate.toInt = shortDecodeM.srate.toInt ∧
      shortDecodeM.slen.toNat < shortDecodeM.srate.toInt.toNat / 10 :=
  ⟨by decide, by decide, by decide, chip_zero_in.2, by decide, by decide⟩

/-- The rows of 95_test_vectors.md 2.3 with `N = 64` and `N = 89`. -/
theorem witness_WholeSegmentsAreTheBitCount :
    10 ≤ v1Start.srate.toInt ∧ 1 ≤ decodeCount v1Start ∧ 1 ≤ decodeCount { v1Start with srate := 100#32, slen := 89#32 } := by
  decide

theorem witness_DeserializerInvertsSerializer : [true, false, true, false, true, false, true].length < 8 := by decide

theorem witness_EqualTonesDecodeToOnes : { v1Start with f1 := 10000#32 }.f0 = { v1Start with f1 := 10000#32 }.f1 := by
  decide

theorem witness_ConstantSegmentsClassifyByToneOrder : 0 < 1 ∧ (0 : ℚ) < 10 ∧ (0 : ℚ) < 20 := by norm_num

theorem witness_DecodeDependsOnlyOnItsOperands :
    (∀ n < decodeCount { v1Start with smp := v1Wave } * decodeSpb { v1Start with smp := v1Wave },
      (Memory.read { v1Start with smp := v1Wave, mlen := 0#32, msg := [] }.smp n).any (fun x =>
        Memory.read v1Wave n = some x ∧ (testCfg.num.real x).isSome = true) = true) ∧
      (decodeStep testCfg { v1Start with mlen := 0#32, msg := [], smp := v1Wave }).status = 2#32 :=
  ⟨by decide +kernel, by rw [test_dec_V3]⟩

theorem witness_OnlyHostWritesChangeParameters :
    exec (.wrReg 2 9#32) v1State = .next { v1State with srate := 9#32, port := .ok } ∧ 9#32 ≠ v1State.srate ∧
      exec (.wrReg 4 9#32) v1State = .next { v1State with f0 := 9#32, port := .ok } ∧ 9#32 ≠ v1State.f0 ∧
      exec (.wrReg 5 9#32) v1State = .next { v1State with f1 := 9#32, port := .ok } ∧ 9#32 ≠ v1State.f1 ∧
      exec (.wrReg 6 9#32) v1State = .next { v1State with dur := 9#32, port := .ok } ∧ 9#32 ≠ v1State.dur :=
  ⟨rfl, by decide, rfl, by decide, rfl, by decide, rfl, by decide⟩

theorem decodeStep_shortDecode (cfg : Config Sample) :
    decodeStep cfg shortDecode = { shortDecode with mlen := 0#32, nbits := 0#32, spb := 0#32, status := 2#32 } := by
  have h := (sampMax_bounds cfg).1
  have hs : uint shortDecode.slen = 1 := by decide
  have hn : ¬ cfg.sampMax < 1 := by omega
  have hc : decodeCount shortDecode = 0 := by decide
  have hp : decodeSpb shortDecode = 0 := by decide
  have hsr : sint shortDecode.srate = 20 := by decide
  have hwr : sint shortDecode.wrate = 20 := by decide
  have hf : sint shortDecode.f0 = 10000 := by decide
  have hg : sint shortDecode.f1 = 20000 := by decide
  have ck : decodeCheck cfg shortDecode = none := by simp [decodeCheck, hs, hn, hc, hsr, hwr, hf, hg]
  simp [decodeStep, ck, hc, hp, decodeSamples, sampleValues, allNumbers, decodeBytes, decodeBits, deserialize,
    commitDecode, Block.drawn, successWord]

theorem witness_OnlyCommandsChangeResults :
    exec .dec shortDecodeM =
        .next { shortDecodeM with mlen := 0#32, nbits := 0#32, spb := 0#32, status := 2#32 } ∧
      0#32 ≠ shortDecodeM.nbits := by
  refine ⟨?_, by decide⟩
  simp only [exec, execDec, State.onBlock, shortDecodeM]
  rw [decodeStep_shortDecode]

theorem witness_OnlyAcceptanceWritesPend :
    exec (.wrCmd 3#32) v1State = .next { v1State with pend := 3#32, status := 1#32, port := .ok } ∧
      exec (.wrReg 0 3#32) v1State = .next { v1State with pend := 3#32, status := 1#32, port := .ok } ∧
      3#32 ≠ v1State.pend := ⟨rfl, rfl, by decide⟩

theorem witness_NumRealHasPNorm :
    numReal.isZero (numReal.absmax [2, -4]) = false ∧
      numReal.real (numReal.div (-4) (numReal.absmax [2, -4])) = some (-1) := by
  norm_num [numReal]

theorem witness_NumRealHasPPeak : 3 ≤ 8 ∧ 0 < 3 ∧ 2 * 3 < 8 ∧ (0 : ℝ) < 1 := by norm_num

theorem realMax_v1 :
    testCfg.num.real (testCfg.num.absmax (encodeWave testCfg .derived v1Start)) = some 1 := by
  have h : testCfg.num.absmax (encodeWave testCfg .derived v1Start) = ⟨1⟩ := by decide +kernel
  rw [h]
  simp [testCfg, testNum]

theorem witness_DecodeRecoversEncodedMessage :
    PNorm testCfg.num ∧ PPeak testCfg.num ∧ v1Start.srate.toInt = 10 * ((8 : ℕ) : ℤ) ∧
      v1Start.f0.toInt = 10000 * ((1 : ℕ) : ℤ) ∧ v1Start.f1.toInt = 10000 * ((2 : ℕ) : ℤ) ∧ 2 * 1 < 8 ∧ 2 * 2 < 8 ∧
      v1Start.mlen ≠ 0#32 ∧ v1Start.mlen.toNat ≤ testCfg.msgMax ∧
      8 * v1Start.mlen.toNat * 8 ≤ testCfg.sampMax ∧
      (∀ c < v1Start.mlen.toNat, Memory.read v1Start.msg c ≠ none) ∧
      (∃ m : ℝ, 0 < m ∧ testCfg.num.real (testCfg.num.absmax (encodeWave testCfg .derived v1Start)) = some m) ∧
      (encodeStep testCfg .derived v1Start).status = 2#32 :=
  ⟨testNum_PNorm, testNum_PPeak, by decide, by decide, by decide, by decide, by decide, by decide, by decide +kernel,
    by decide +kernel, by decide, ⟨1, by norm_num, realMax_v1⟩, by rw [test_encd_V1]⟩

theorem witness_RealWaveformDecodesToItsMessage :
    [0x41#8] ≠ [] ∧ 3 ≤ 8 ∧ 0 < 1 ∧ 0 < 3 ∧ 1 ≠ 3 ∧ 2 * 1 < 8 ∧ 2 * 3 < 8 := by decide

theorem witness_SampleWordsHaveTheMachinesWidth :
    (⟨Config.chipWidth + 1, 0#_⟩ : CellWord).width ≠ Config.chipWidth := Nat.succ_ne_self _

/-- The host's read, then the engine's turn, from a pending encode. -/
theorem witness_EveryStepIsAStepOfTheRelation :
    step pendingState = .next { pendingState with inputs := [.engine], port := .word 1#32 } ∧
      blockStep Config.chip (.read .reg 1) pendingState.toBlock =
        some ({ pendingState with port := .word 1#32 } : State).toBlock ∧
      step { v1State with inputs := [.engine] } = .next v1State ∧ v1State.busy = false := ⟨rfl, rfl, rfl, by decide⟩

end Sys2Proof.Tests
end

section
/-! PROOFS, the layer below the statements on the state (10_state.md): what an instruction can do to the block,
what a step runs, what the commands leave unchanged, and the counts and samples a successful encode stores. -/

namespace Sys2Proof.Machine

variable {S : Type}

/-! ### What an instruction does: one operation of the block -/

/-- The operation of the block an instruction performs. -/
def execBlock : Instr → Block Sample → Block Sample
  | .encd => encodeStep Config.chip .derived
  | .encx => encodeStep Config.chip .explicit
  | .dec => decodeStep Config.chip
  | .reservedCmd _ => memWrite Config.chip .reg 0 (raise .usage)
  | .rdReg k => memRead Config.chip .reg k
  | .rdMsg k => memRead Config.chip .msg k
  | .rdSmp k => memRead Config.chip .smp k
  | .wrReg k v => memWrite Config.chip .reg k (storeReg k v)
  | .wrCmd c => memWrite Config.chip .reg 0 (storeReg 0 c)
  | .wrMsg k v => memWrite Config.chip .msg k (storeMsg k v)
  | .wrSmp k w => memWriteWord Config.chip k w

/-- No instruction stops, and none changes what is still to come. -/
theorem exec_eq (i : Instr) (s : State) : exec i s = .next (s.onBlock (execBlock i)) := by
  cases i <;> rfl

theorem exec_next_iff (i : Instr) (s t : State) : exec i s = .next t ↔ t = s.onBlock (execBlock i) := by
  rw [exec_eq, Host.Outcome.next.injEq, eq_comm]

/-- What an instruction can do to the block `s`, and to which instruction it belongs. -/
inductive Effect (s : Block Sample) : Instr → Block Sample → Prop
  /-- A read, a dropped write or a `HostFault`: the port answers, free values may be used up. -/
  | answer (i : Instr) (r : Response Sample) (k : ℕ) : Effect s i ((s.respond r).drawn k)
  /-- Acceptance of a command (43_host_control.md R215). -/
  | accept (i : Instr) (c : Word) (hi : i = .wrCmd c ∨ i = .wrReg 0 c) (idle : s.busy = false)
      (hc : c = 1#32 ∨ c = 2#32 ∨ c = 3#32) : Effect s i ((accept c s).respond .ok)
  /-- A reserved word at `CMD` (30_encoding.md R94). -/
  | usage (i : Instr) : Effect s i ((raise .usage s).respond .ok)
  /-- A register written while idle (43_host_control.md R213). -/
  | writeReg (r : ℕ) (v : Word) : Effect s (.wrReg r v) ((s.writeReg r v).respond .ok)
  /-- A message cell written while idle (43_host_control.md R216). -/
  | writeMsg (k : ℕ) (v : Byte) (inside : k ≤ Config.chip.msgTop.val) :
      Effect s (.wrMsg k v) ((storeMsg k v s).respond .ok)
  /-- A sample cell written while idle (43_host_control.md R216). -/
  | writeSmp (k : ℕ) (w : CellWord) (x : Sample) (inside : k ≤ Config.chip.sampTop.val) :
      Effect s (.wrSmp k w) ((storeSmp k x s).respond .ok)
  /-- An encode (40_encode.md R120, R121). -/
  | encode (i : Instr) (v : DurationRule) (hi : i = .encd ∨ i = .encx) : Effect s i (encodeStep Config.chip v s)
  /-- A decode (41_decode.md R150). -/
  | decode : Effect s .dec (decodeStep Config.chip s)

theorem Effect.respond (s : Block Sample) (i : Instr) (r : Response Sample) : Effect s i (s.respond r) :=
  .answer i r 0

theorem Effect.memRead (s : Block Sample) (i : Instr) (sp : Space) (k : ℕ) :
    Effect s i (memRead Config.chip sp k s) := by
  obtain ⟨r, n, h⟩ := memRead_frame Config.chip sp k s
  exact h ▸ .answer i r n

/-- A write has the effect of its write rule, where that runs. -/
theorem Effect.memWrite (s : Block Sample) (i : Instr) (sp : Space) (k : ℕ) (store : Block Sample → Block Sample)
    (hstore : k ≤ topIndex Config.chip sp → s.busy = false → Effect s i ((store s).respond .ok)) :
    Effect s i (memWrite Config.chip sp k store s) := by
  obtain ⟨r, h⟩ | ⟨hk, idle, h⟩ := memWrite_cases Config.chip sp k store s
  · exact h ▸ .respond s i r
  · exact h ▸ hstore hk idle

theorem Effect.dispatch (s : Block Sample) (i : Instr) (c : Word) (hi : i = .wrCmd c ∨ i = .wrReg 0 c)
    (idle : s.busy = false) : Effect s i ((dispatch c s).respond .ok) := by
  obtain ⟨hc, h⟩ | ⟨-, h⟩ := dispatch_cases c s
  · exact h ▸ .accept i c hi idle hc
  · exact h ▸ .usage i

/-- What every instruction does is one of the effects. -/
theorem effect_execBlock (i : Instr) (s : Block Sample) : Effect s i (execBlock i s) := by
  cases i with
  | encd => exact .encode _ .derived (.inl rfl)
  | encx => exact .encode _ .explicit (.inr rfl)
  | dec => exact .decode
  | reservedCmd c => exact .memWrite _ _ _ _ _ fun _ _ => .usage _
  | rdReg k => exact .memRead _ _ _ _
  | rdMsg k => exact .memRead _ _ _ _
  | rdSmp k => exact .memRead _ _ _ _
  | wrReg k v =>
    refine .memWrite _ _ _ _ _ fun _ idle => ?_
    by_cases hk : k = 0
    · subst hk; exact .dispatch s _ v (.inr rfl) idle
    · rw [storeReg, if_neg hk]; exact .writeReg k v
  | wrCmd c => exact .memWrite _ _ _ _ _ fun _ idle => .dispatch s _ c (.inl rfl) idle
  | wrMsg k v => exact .memWrite _ _ _ _ _ fun hk _ => .writeMsg k v hk
  | wrSmp k w =>
    obtain ⟨-, h⟩ | ⟨x, -, h⟩ := memWriteWord_cases Config.chip k w s
    · exact (show execBlock (.wrSmp k w) s = _ from h) ▸ .respond _ _ _
    · exact (show execBlock (.wrSmp k w) s = _ from h) ▸ .memWrite _ _ _ _ _ fun hk _ => .writeSmp k w x hk

theorem exec_effect {i : Instr} {s t : State} (h : exec i s = .next t) : Effect s.toBlock i t.toBlock := by
  rw [(exec_next_iff i s t).1 h]
  exact effect_execBlock i s.toBlock

/-! ### What a step runs -/

/-- An engine's turn runs the pending command, or finds none. -/
theorem engineTurn_next {s t : State} (h : engineTurn s = .next t) :
    (s.busy = true ∧ ∃ i, pendingCommand s = some i ∧ exec i s = .next t) ∨ s.busy = false ∧ t = s := by
  unfold engineTurn at h
  split_ifs at h with hb
  · cases hp : pendingCommand s with
    | none => simp [hp] at h
    | some i => exact .inl ⟨hb, i, rfl, by simpa [hp] using h⟩
  · exact .inr ⟨by simpa using hb, (Host.Outcome.next.inj h).symm⟩

/-- A host's turn runs the access its bits encode. -/
theorem hostTurn_next {f : Frame} {s t : State} (h : hostTurn f s = .next t) :
    ∃ i, decodeFrame f = .ok i ∧ exec i s = .next t := by
  unfold hostTurn at h
  cases hd : decodeFrame f with
  | error e => simp [hd] at h
  | ok i => exact ⟨i, rfl, by simpa [hd] using h⟩

/-- A step runs an instruction, leaves an idle block as it is, or resets it. -/
theorem step_next {s t : State} (h : step s = .next t) :
    (∃ i rest, exec i { s with inputs := rest } = .next t) ∨ t.toBlock = s.toBlock ∨
      t.toBlock = s.toBlock.resetEvent := by
  have engine : ∀ rest, engineTurn { s with inputs := rest } = .next t →
      (∃ i rest, exec i { s with inputs := rest } = .next t) ∨ t.toBlock = s.toBlock := by
    intro rest he
    obtain ⟨-, i, -, hi⟩ | ⟨-, ht⟩ := engineTurn_next he
    · exact .inl ⟨i, rest, hi⟩
    · exact .inr (by rw [ht])
  unfold step at h
  cases hin : s.inputs with
  | nil =>
    rw [turn_nil s hin] at h
    exact or_assoc.1 (.inl (engine s.inputs h))
  | cons head rest =>
    cases head with
    | host f =>
      rw [turn_host s f rest hin] at h
      obtain ⟨i, -, hi⟩ := hostTurn_next h
      exact .inl ⟨i, rest, hi⟩
    | engine =>
      rw [turn_engine s rest hin] at h
      exact or_assoc.1 (.inl (engine rest h))
    | reset =>
      rw [turn_reset s rest hin] at h
      exact .inr (.inr (by rw [← Host.Outcome.next.inj h]; rfl))

/-! ### What the commands leave unchanged, and the status they end in -/

/-- The frame of an encode: the parameter registers, `MLEN`, the latch, the message cells and the port. -/
@[simp] theorem encodeStep_frame (cfg : Config S) (v : DurationRule) (s : Block S) :
    (encodeStep cfg v s).srate = s.srate ∧ (encodeStep cfg v s).f0 = s.f0 ∧ (encodeStep cfg v s).f1 = s.f1 ∧
      (encodeStep cfg v s).dur = s.dur ∧ (encodeStep cfg v s).mlen = s.mlen ∧
      (encodeStep cfg v s).pend = s.pend ∧ (encodeStep cfg v s).msg = s.msg ∧
      (encodeStep cfg v s).port = s.port := by
  obtain ⟨e, -, h⟩ | ⟨-, -, h⟩ | ⟨-, -, h⟩ := encodeStep_cases cfg v s <;> simp [h]

/-- The frame of a decode: the parameter registers, `WRATE`, `SLEN`, the latch, the sample cells and the port. -/
@[simp] theorem decodeStep_frame [Inhabited S] (cfg : Config S) (s : Block S) :
    (decodeStep cfg s).srate = s.srate ∧ (decodeStep cfg s).wrate = s.wrate ∧ (decodeStep cfg s).f0 = s.f0 ∧
      (decodeStep cfg s).f1 = s.f1 ∧ (decodeStep cfg s).dur = s.dur ∧ (decodeStep cfg s).slen = s.slen ∧
      (decodeStep cfg s).pend = s.pend ∧ (decodeStep cfg s).smp = s.smp ∧ (decodeStep cfg s).port = s.port := by
  obtain ⟨e, -, h⟩ | ⟨-, -, h⟩ | ⟨-, -, h⟩ := decodeStep_cases cfg s <;> simp [h]

theorem encodeStep_completed (cfg : Config S) (v : DurationRule) (s : Block S) :
    ∃ k, (encodeStep cfg v s).status = completedWord k := by
  obtain ⟨e, -, h⟩ | ⟨-, -, h⟩ | ⟨-, -, h⟩ := encodeStep_cases cfg v s <;> rw [h]
  · exact errorWord_completed e
  · exact errorWord_completed .degenerateSignal
  · exact successWord_completed

theorem decodeStep_completed [Inhabited S] (cfg : Config S) (s : Block S) :
    ∃ k, (decodeStep cfg s).status = completedWord k := by
  obtain ⟨e, -, h⟩ | ⟨-, -, h⟩ | ⟨-, -, h⟩ := decodeStep_cases cfg s <;> rw [h]
  · exact errorWord_completed e
  · exact successWord_completed
  · exact ⟨_, rfl⟩

theorem errorWord_ne_successWord (e : ErrCode) : errorWord e ≠ successWord := by
  cases e <;> decide

/-- An encode that ends in success passed its checks, met no DegenerateSignal, and committed. -/
theorem encodeStep_success {cfg : Config S} {v : DurationRule} {s : Block S}
    (h : (encodeStep cfg v s).status = successWord) :
    encodeCheck cfg v s = none ∧ degenerate cfg.num (encodeSpb v s) (encodeWave cfg v s) = false ∧
      encodeStep cfg v s = commitEncode (normalizeWave cfg.num (encodeWave cfg v s)) (encodeBits s)
        (encodeSpb v s) (s.drawn (uint s.mlen)) := by
  obtain ⟨e, -, he⟩ | ⟨-, -, he⟩ | hcommit := encodeStep_cases cfg v s
  · exact absurd (by rwa [he] at h) (errorWord_ne_successWord e)
  · exact absurd (by rwa [he] at h) (errorWord_ne_successWord .degenerateSignal)
  · exact hcommit

/-! ### A register write has one target -/

theorem writeReg_srate_of_ne (s : Block S) {r : ℕ} (v : Word) (h : r ≠ 2) : (s.writeReg r v).srate = s.srate := by
  unfold Block.writeReg; split <;> trivial

theorem writeReg_f0_of_ne (s : Block S) {r : ℕ} (v : Word) (h : r ≠ 4) : (s.writeReg r v).f0 = s.f0 := by
  unfold Block.writeReg; split <;> trivial

theorem writeReg_f1_of_ne (s : Block S) {r : ℕ} (v : Word) (h : r ≠ 5) : (s.writeReg r v).f1 = s.f1 := by
  unfold Block.writeReg; split <;> trivial

theorem writeReg_dur_of_ne (s : Block S) {r : ℕ} (v : Word) (h : r ≠ 6) : (s.writeReg r v).dur = s.dur := by
  unfold Block.writeReg; split <;> trivial

end Sys2Proof.Machine
end

section
/-! PROOFS, the invariant of a run (10_state.md R23; 20_memory.md R60; 43_host_control.md R217): of a block over any
sample type and any implementation, kept by every operation, and so by every step of the machine. -/

namespace Sys2Proof.Machine

variable {S α : Type}

/-! ### Cells inside their space -/

theorem cellsInside_nil (top : ℕ) : cellsInside top ([] : Memory α) := ⟨rfl, by simp⟩

theorem cellsInside_write {top : ℕ} {m : Memory α} (hm : cellsInside top m) {i : ℕ} (hi : i ≤ top) (v : α) :
    cellsInside top (Memory.write m i v) := by
  refine ⟨wf_write m i v hm.1, fun c hc => ?_⟩
  obtain rfl | hc := mem_write m i v c hc
  · exact hi
  · exact hm.2 c hc

theorem cellsInside_writePrefix {top : ℕ} {m : Memory α} (hm : cellsInside top m) {vs : List α}
    (hvs : vs.length ≤ top + 1) : cellsInside top (Memory.writePrefix m vs) := by
  refine ⟨wf_writePrefix m vs hm.1, fun c hc => ?_⟩
  obtain hc | hc := mem_writePrefix m vs c hc
  · omega
  · exact hm.2 c hc

theorem encodeStep_smp_inside (cfg : Config S) (v : DurationRule) {s : Block S}
    (h : cellsInside cfg.sampTop.val s.smp) : cellsInside cfg.sampTop.val (encodeStep cfg v s).smp := by
  obtain ⟨e, -, he⟩ | ⟨-, -, he⟩ | ⟨hcheck, -, he⟩ := encodeStep_cases cfg v s <;> rw [he]
  · exact h
  · exact h
  · obtain ⟨-, -, -, -, -, -, hfits⟩ := encodeCheck_none cfg v s hcheck
    exact cellsInside_writePrefix h (by simpa [sampMax_eq] using hfits)

theorem decodeStep_msg_inside [Inhabited S] (cfg : Config S) {s : Block S}
    (h : cellsInside cfg.msgTop.val s.msg) : cellsInside cfg.msgTop.val (decodeStep cfg s).msg := by
  have fits : decodeCheck cfg s = none → decodeCount s / 8 ≤ cfg.msgTop.val + 1 := fun hcheck =>
    (decodeCheck_none cfg s hcheck).2.2.2.2.2
  obtain ⟨e, -, he⟩ | ⟨hcheck, -, he⟩ | ⟨hcheck, -, he⟩ := decodeStep_cases cfg s <;> rw [he]
  · exact h
  · exact cellsInside_writePrefix h (by simpa using fits hcheck)
  · exact cellsInside_writePrefix h (by simpa using fits hcheck)

/-! ### The invariant of the block -/

/-- `StateInv`, said of a block: what is still to come has no part in it. -/
structure BlockInv (cfg : Config S) (b : Block S) : Prop where
  status : legalStatus b.status
  pending : b.busy = true → b.pend = 1#32 ∨ b.pend = 2#32 ∨ b.pend = 3#32
  msg : cellsInside cfg.msgTop.val b.msg
  smp : cellsInside cfg.sampTop.val b.smp

theorem stateInv_iff_blockInv (s : State) : StateInv s ↔ BlockInv Config.chip s.toBlock :=
  ⟨fun ⟨h1, h2, h3, h4⟩ => ⟨h1, h2, h3, h4⟩, fun ⟨h1, h2, h3, h4⟩ => ⟨h1, h2, h3, h4⟩⟩

namespace BlockInv

variable {cfg : Config S} {b : Block S}

/-- After a command nothing is pending, so the cells are all there is to show. -/
theorem of_completed (hstatus : ∃ k, b.status = completedWord k) (hmsg : cellsInside cfg.msgTop.val b.msg)
    (hsmp : cellsInside cfg.sampTop.val b.smp) : BlockInv cfg b := by
  refine ⟨.inr (.inr hstatus), fun hbusy => ?_, hmsg, hsmp⟩
  obtain ⟨k, hk⟩ := hstatus
  simp [Block.busy, hk, busy_completedWord] at hbusy

theorem respond (h : BlockInv cfg b) (r : Response S) : BlockInv cfg (b.respond r) :=
  ⟨h.status, h.pending, h.msg, h.smp⟩

theorem drawn (h : BlockInv cfg b) (k : ℕ) : BlockInv cfg (b.drawn k) :=
  ⟨h.status, h.pending, h.msg, h.smp⟩

theorem raise (h : BlockInv cfg b) (e : ErrCode) : BlockInv cfg (raise e b) :=
  of_completed (errorWord_completed e) h.msg h.smp

theorem accept (h : BlockInv cfg b) {c : Word} (hc : c = 1#32 ∨ c = 2#32 ∨ c = 3#32) :
    BlockInv cfg (accept c b) :=
  ⟨.inr (.inl rfl), fun _ => hc, h.msg, h.smp⟩

theorem writeReg (h : BlockInv cfg b) (r : ℕ) (v : Word) : BlockInv cfg (b.writeReg r v) := by
  constructor <;> simp only [writeReg_status, busy_writeReg, writeReg_pend, writeReg_msg, writeReg_smp]
  exacts [h.status, h.pending, h.msg, h.smp]

theorem storeMsg (h : BlockInv cfg b) {i : ℕ} (hi : i ≤ cfg.msgTop.val) (v : Byte) :
    BlockInv cfg (storeMsg i v b) :=
  ⟨h.status, h.pending, cellsInside_write h.msg hi v, h.smp⟩

theorem storeSmp (h : BlockInv cfg b) {i : ℕ} (hi : i ≤ cfg.sampTop.val) (x : S) :
    BlockInv cfg (storeSmp i x b) :=
  ⟨h.status, h.pending, h.msg, cellsInside_write h.smp hi x⟩

theorem encodeStep (h : BlockInv cfg b) (v : DurationRule) : BlockInv cfg (encodeStep cfg v b) :=
  of_completed (encodeStep_completed cfg v b) (by simpa using h.msg) (encodeStep_smp_inside cfg v h.smp)

theorem decodeStep [Inhabited S] (h : BlockInv cfg b) : BlockInv cfg (decodeStep cfg b) :=
  of_completed (decodeStep_completed cfg b) (decodeStep_msg_inside cfg h.msg) (by simpa using h.smp)

theorem reset : BlockInv cfg (Block.reset : Block S) :=
  ⟨.inl rfl, fun hbusy => by simp [Block.busy, Block.reset, busyFlag] at hbusy, cellsInside_nil _, cellsInside_nil _⟩

theorem resetEvent : BlockInv cfg b.resetEvent :=
  have h : BlockInv cfg (Block.reset : Block S) := reset
  ⟨h.status, h.pending, h.msg, h.smp⟩

end BlockInv

/-- Every instruction keeps the invariant. -/
theorem Effect.blockInv {i : Instr} {s t : Block Sample} (effect : Effect s i t) (h : BlockInv Config.chip s) :
    BlockInv Config.chip t := by
  cases effect with
  | answer _ r k => exact (h.respond _).drawn _
  | accept _ c hi idle hc => exact (h.accept hc).respond _
  | usage => exact (h.raise _).respond _
  | writeReg r v => exact (h.writeReg r v).respond _
  | writeMsg k v inside => exact (h.storeMsg inside v).respond _
  | writeSmp k w x inside => exact (h.storeSmp inside x).respond _
  | encode _ v hi => exact h.encodeStep v
  | decode => exact h.decodeStep

/-- Settles O12: a step is an instruction's effect, nothing, or a reset, and each keeps the invariant. -/
theorem everyStepKeepsStateInv : Obligations.EveryStepKeepsStateInv := by
  intro s t hs hstep
  rw [stateInv_iff_blockInv] at hs ⊢
  obtain ⟨i, rest, hexec⟩ | hidle | hreset := step_next hstep
  · exact (exec_effect hexec).blockInv hs
  · rwa [hidle]
  · rw [hreset]
    exact .resetEvent

/-- Settles O11: the base case of `everyStepKeepsStateInv`. -/
theorem stateInvHoldsAtReset : Obligations.StateInvHoldsAtReset :=
  (stateInv_iff_blockInv State.reset).2 .reset

end Sys2Proof.Machine
end

section
/-! PROOFS, the samples and the counts a command stores (10_state.md R36, R38; 40_encode.md R127 to R131). -/

namespace Sys2Proof.Machine

variable {S : Type}

/-! ### The stored waveform -/

@[simp] theorem messageBytes_length (s : Block S) (n : ℕ) : (messageBytes s n).length = n := by
  simp [messageBytes]

@[simp] theorem serialize_length (bytes : List Byte) : (serialize bytes).length = 8 * bytes.length := by
  simp [serialize, bitsOfByte, Nat.mul_comm]

theorem waveform_getElem (num : Num S) (bits : List Bool) (T p : ℕ) (D f0 f1 : ℚ) (n : ℕ)
    (h : n < (waveform num bits T p D f0 f1).length) :
    (waveform num bits T p D f0 f1)[n] =
      if n < bits.length * p then num.sin2pi (phase (tone f0 f1 (bits.getD (n / p) false)) D T n) else num.zero := by
  simp [waveform]

theorem degenerate_eq_false {num : Num S} {p : ℕ} {w : List S} :
    degenerate num p w = false ↔ p ≠ 0 ∧ num.isZero (num.absmax w) = false := by
  simp [degenerate]

/-- The samples after the last window are zero before normalization (40_encode.md R128). -/
theorem encodeWave_tail (cfg : Config S) (v : DurationRule) (s : Block S) {n : ℕ}
    (hn : encodeBits s * encodeSpb v s ≤ n) (h : n < (encodeWave cfg v s).length) :
    (encodeWave cfg v s)[n] = cfg.num.zero := by
  simp only [encodeWave, waveform_getElem, serialize_length, messageBytes_length]
  exact if_neg (Nat.not_lt.2 hn)

/-- After the commit of an encode, cell `n` holds the normalized sample `n`. -/
theorem read_commitEncode_normalizeWave (num : Num S) (w : List S) (B p : ℕ) (s : Block S) {n : ℕ}
    (h : n < w.length) :
    Memory.read (commitEncode (normalizeWave num w) B p s).smp n = some (num.div w[n] (num.absmax w)) := by
  simp [read_writePrefix, h, normalizeWave]

/-! ### The counts -/

theorem encodeBits_lt {cfg : Config S} {s : Block S} (h : uint s.mlen ≤ cfg.msgMax) : encodeBits s < 2 ^ 32 := by
  have := (msgMax_bounds cfg).2
  unfold encodeBits
  omega

theorem encodeSpb_le (v : DurationRule) (s : Block S) : encodeSpb v s ≤ encodeTotal v s := Nat.div_le_self _ _

theorem decodeCount_le (s : Block S) : decodeCount s ≤ uint s.slen := Nat.div_le_self _ _

theorem decodeSpb_le (s : Block S) : decodeSpb s ≤ uint s.slen := by
  unfold decodeSpb
  split_ifs
  · exact Nat.zero_le _
  · exact Nat.div_le_self _ _

/-- The counts a successful encode stores are not wrapped (10_state.md R38). -/
theorem encodeStep_counts {cfg : Config S} {v : DurationRule} {s : Block S}
    (h : (encodeStep cfg v s).status = successWord) :
    (encodeStep cfg v s).slen.toNat = encodeTotal v s ∧ (encodeStep cfg v s).nbits.toNat = encodeBits s ∧
      (encodeStep cfg v s).spb.toNat = encodeSpb v s := by
  obtain ⟨hcheck, -, hcommit⟩ := encodeStep_success h
  obtain ⟨-, -, -, -, -, hmlen, htotal⟩ := encodeCheck_none cfg v s hcheck
  have hT : encodeTotal v s < 2 ^ 32 := by have := (sampMax_bounds cfg).2; omega
  simp only [hcommit, commitEncode_slen, commitEncode_nbits, commitEncode_spb, normalizeWave_length,
    encodeWave_length, BitVec.toNat_ofNat]
  exact ⟨Nat.mod_eq_of_lt hT, Nat.mod_eq_of_lt (encodeBits_lt hmlen),
    Nat.mod_eq_of_lt ((encodeSpb_le v s).trans_lt hT)⟩

/-- Past its checks a decode of numbers commits, and the counts it stores are not wrapped (10_state.md R38). -/
theorem decodeStep_counts [Inhabited S] {cfg : Config S} {s : Block S} (hcheck : decodeCheck cfg s = none)
    (hnum : allNumbers cfg.num (decodeSamples s) = true) :
    (decodeStep cfg s).status = successWord ∧ (decodeStep cfg s).nbits.toNat = decodeCount s ∧
      (decodeStep cfg s).spb.toNat = decodeSpb s ∧ (decodeStep cfg s).mlen.toNat = decodeCount s / 8 := by
  have hN : uint s.slen < 2 ^ 32 := s.slen.isLt
  have hB := (decodeCount_le s).trans_lt hN
  obtain ⟨e, he, -⟩ | ⟨-, -, hcommit⟩ | ⟨-, hnot, -⟩ := decodeStep_cases cfg s
  · simp [hcheck] at he
  · simp only [hcommit, commitDecode_status, commitDecode_nbits, commitDecode_spb, commitDecode_mlen,
      decodeBytes_length, BitVec.toNat_ofNat]
    exact ⟨trivial, Nat.mod_eq_of_lt hB, Nat.mod_eq_of_lt ((decodeSpb_le s).trans_lt hN),
      Nat.mod_eq_of_lt ((Nat.div_le_self _ 8).trans_lt hB)⟩
  · simp [hnum] at hnot

/-- Settles O43: the checks bound every count below `2 ^ 32`, so the registers hold the counts themselves. -/
theorem countsFitTheirRegisters : Obligations.CountsFitTheirRegisters := by
  refine ⟨fun s => ⟨exec_eq .encd s, exec_eq .encx s, exec_eq .dec s⟩, ?_, ?_⟩
  · rintro S cfg s t v hcheck rfl hstatus
    obtain ⟨-, -, -, -, -, hmlen, htotal⟩ := encodeCheck_none cfg v s hcheck
    obtain ⟨hslen, hnbits, hspb⟩ := encodeStep_counts hstatus
    rw [hslen, hnbits, hspb]
    exact ⟨rfl, rfl, rfl, htotal, Nat.mul_le_mul_left 8 hmlen, encodeSpb_le v s⟩
  · rintro S _ cfg s t hcheck hnum rfl
    obtain ⟨-, -, -, hN, -, hmsg⟩ := decodeCheck_none cfg s hcheck
    obtain ⟨hstatus, hnbits, hspb, hmlen⟩ := decodeStep_counts hcheck hnum
    obtain ⟨-, -, -, -, -, hslen, -, -, -⟩ := decodeStep_frame cfg s
    rw [hnbits, hspb, hmlen, hslen]
    exact ⟨hstatus, rfl, rfl, rfl, decodeCount_le s, hN, decodeSpb_le s, hmsg⟩

/-- Settles O42: the stored samples are the quotients `P-NORM` speaks of. -/
theorem normalizedWaveformPeaksAtOne : Obligations.NormalizedWaveformPeaksAtOne := by
  rintro S cfg v s t hnorm - rfl hstatus
  obtain ⟨-, hdegenerate, hcommit⟩ := encodeStep_success hstatus
  obtain ⟨-, hnonzero⟩ := degenerate_eq_false.1 hdegenerate
  obtain ⟨hrange, ⟨x, hx, hpeak⟩, hzero⟩ := hnorm _ hnonzero
  have hread : ∀ n, (h : n < (encodeWave cfg v s).length) → Memory.read (encodeStep cfg v s).smp n =
      some (cfg.num.div (encodeWave cfg v s)[n] (cfg.num.absmax (encodeWave cfg v s))) := fun n h => by
    rw [hcommit, read_commitEncode_normalizeWave _ _ _ _ _ h]
  rw [(encodeStep_counts hstatus).1, ← encodeWave_length cfg v s]
  refine ⟨fun n hn => ?_, ?_, ?_, fun n hle hn => ?_⟩
  · obtain ⟨r, hr, hlow, hhigh, -⟩ := hrange _ (List.getElem_mem hn)
    exact ⟨_, r, hread n hn, hr, hlow, hhigh⟩
  · obtain ⟨n, hn, rfl⟩ := List.mem_iff_getElem.1 hx
    exact ⟨n, hn, _, hread n hn, hpeak⟩
  · rw [encodeWave_length]
    exact Nat.div_add_mod _ _
  · have hstored := hread n hn
    rw [encodeWave_tail cfg v s hle hn] at hstored
    exact ⟨_, hstored, hzero, id⟩

end Sys2Proof.Machine
end

section
/-! PROOFS, who changes what (10_state.md R21, R31, R32, R39, R45, R46): each statement is read off the effects. -/

namespace Sys2Proof.Machine

/-- No effect but a register write changes a parameter. -/
theorem Effect.parameters {i : Instr} {s t : Block Sample} (effect : Effect s i t) :
    (t.srate = s.srate ∧ t.f0 = s.f0 ∧ t.f1 = s.f1 ∧ t.dur = s.dur) ∨
      ∃ r v, i = .wrReg r v ∧ t = (s.writeReg r v).respond .ok := by
  cases effect with
  | writeReg r v => exact .inr ⟨r, v, rfl, rfl⟩
  | _ => exact .inl (by simp)

/-- No effect but a command's changes a result. -/
theorem Effect.results {i : Instr} {s t : Block Sample} (effect : Effect s i t) :
    (t.nbits = s.nbits ∧ t.spb = s.spb) ∨ i = .encd ∨ i = .encx ∨ i = .dec := by
  cases effect with
  | encode _ v hi => exact .inr (hi.imp_right .inl)
  | decode => exact .inr (.inr (.inr rfl))
  | _ => exact .inl (by simp)

/-- No effect but an acceptance changes the latch. -/
theorem Effect.latch {i : Instr} {s t : Block Sample} (effect : Effect s i t) :
    t.pend = s.pend ∨ ∃ c, (i = .wrCmd c ∨ i = .wrReg 0 c) ∧ s.busy = false ∧
      (c = 1#32 ∨ c = 2#32 ∨ c = 3#32) ∧ t.pend = c ∧ t.status = busyWord := by
  cases effect with
  | accept _ c hi idle hc => exact .inr ⟨c, hi, idle, hc, rfl, rfl⟩
  | _ => exact .inl (by simp)

/-- Settles O53: only a register write can change a parameter, and it has one target. -/
theorem onlyHostWritesChangeParameters : Obligations.OnlyHostWritesChangeParameters := by
  intro s t i h
  obtain ⟨hsrate, hf0, hf1, hdur⟩ | ⟨r, v, rfl, ht⟩ := (exec_effect h).parameters
  · exact ⟨(absurd hsrate ·), (absurd hf0 ·), (absurd hf1 ·), (absurd hdur ·)⟩
  · have written : ∀ {k}, r = k → ∃ u, Instr.wrReg r v = .wrReg k u := fun hr => ⟨v, by rw [hr]⟩
    simp only [ht, respond_srate, respond_f0, respond_f1, respond_dur]
    exact ⟨fun hne => written (not_imp_comm.1 (writeReg_srate_of_ne _ v) hne),
      fun hne => written (not_imp_comm.1 (writeReg_f0_of_ne _ v) hne),
      fun hne => written (not_imp_comm.1 (writeReg_f1_of_ne _ v) hne),
      fun hne => written (not_imp_comm.1 (writeReg_dur_of_ne _ v) hne)⟩

/-- Settles O54: read off the effects. -/
theorem onlyCommandsChangeResults : Obligations.OnlyCommandsChangeResults := by
  intro s t i h hchange
  refine (exec_effect h).results.resolve_left ?_
  rintro ⟨hnbits, hspb⟩
  exact hchange.elim (· hnbits) (· hspb)

/-- Settles O55: read off the effects. -/
theorem onlyAcceptanceWritesPend : Obligations.OnlyAcceptanceWritesPend := fun _ _ _ h hchange =>
  (exec_effect h).latch.resolve_left hchange

/-- Settles O1: the reset block is a literal. -/
theorem resetStateHoldsResetValues : Obligations.ResetStateHoldsResetValues :=
  ⟨rfl, rfl, rfl, rfl, rfl, rfl, rfl, rfl, rfl, rfl, fun _ => rfl, fun _ => rfl⟩

end Sys2Proof.Machine
end

section
/-! PROOFS, the memory spaces (20_memory.md R61, R62, R64, R66, R74; 43_host_control.md R214, R222): what a host access
and a command can change, and the step as a step of the relation. -/

namespace Sys2Proof.Machine

variable {S : Type}

/-! ### A host access that only answers -/

theorem sameBlock_respond (b : Block S) (r : Response S) : sameBlock b (b.respond r) := by
  simp [sameBlock]

theorem sameBlock_drawn (b : Block S) (k : ℕ) : sameBlock b (b.drawn k) := by
  simp [sameBlock]

/-- A read changes at most the model's own fields (20_memory.md R64). -/
theorem sameBlock_memRead [Inhabited S] (cfg : Config S) (sp : Space) (i : ℕ) (b : Block S) :
    sameBlock b (memRead cfg sp i b) := by
  obtain ⟨r, k, h⟩ := memRead_frame cfg sp i b
  rw [h]
  exact sameBlock_drawn (b.respond r) k

/-- A write while a command is pending is dropped, whatever its write rule (43_host_control.md R214). -/
theorem sameBlock_memWrite_busy (cfg : Config S) (sp : Space) (i : ℕ) (store : Block S → Block S) {b : Block S}
    (hbusy : b.busy = true) : sameBlock b (memWrite cfg sp i store b) := by
  obtain ⟨r, h⟩ | ⟨-, hidle, -⟩ := memWrite_cases cfg sp i store b
  · rw [h]
    exact sameBlock_respond b r
  · simp [hbusy] at hidle

/-- A host access while a command is pending changes at most the model's own fields. -/
theorem exec_access_busy {f : Frame} {i : Instr} (hf : decodeFrame f = .ok i) {s : State} (hbusy : s.busy = true) :
    ∃ t, exec i s = .next t ∧ sameBlock s.toBlock t.toBlock ∧ t.inputs = s.inputs := by
  obtain ⟨sp, k, rfl⟩ | ⟨sp, k, v, rfl⟩ := decodeFrame_cases f i hf
  · exact ⟨_, exec_readOf sp k s, sameBlock_memRead _ sp k _, rfl⟩
  · obtain h | ⟨store, h⟩ := exec_writeOf sp k v s
    · exact ⟨_, h, sameBlock_respond _ _, rfl⟩
    · exact ⟨_, h, sameBlock_memWrite_busy _ sp k store hbusy, rfl⟩

/-- Settles O16: a busy block answers reads and drops writes. -/
theorem hostCannotChangeBlockWhileBusy : Obligations.HostCannotChangeBlockWhileBusy := by
  intro s f rest i hbusy hin hf
  have hstep : step s = exec i { s with inputs := rest } := by
    rw [step, turn_host s f rest hin, hostTurn, hf]
  rw [hstep]
  exact exec_access_busy hf (s := { s with inputs := rest }) hbusy

/-- Settles O20: every read is a `memRead`. -/
theorem readChangesNoState : Obligations.ReadChangesNoState := by
  rintro s k i (rfl | rfl | rfl)
  · exact ⟨_, exec_readOf .reg k s, sameBlock_memRead _ _ _ _, rfl⟩
  · exact ⟨_, exec_readOf .msg k s, sameBlock_memRead _ _ _ _, rfl⟩
  · exact ⟨_, exec_readOf .smp k s, sameBlock_memRead _ _ _ _, rfl⟩

/-! ### The write of a sample's word -/

theorem memWriteWord_none {cfg : Config S} {w : CellWord} (h : sampleOfWord cfg.num w = none) (i : ℕ) (b : Block S) :
    memWriteWord cfg i w b = b.respond .hostFault := by
  rw [memWriteWord, h]

theorem memWriteWord_some {cfg : Config S} {w : CellWord} {x : S} (h : sampleOfWord cfg.num w = some x) (i : ℕ)
    (b : Block S) : memWriteWord cfg i w b = memWrite cfg .smp i (storeSmp i x) b := by
  rw [memWriteWord, h]

/-- Outside the space the width of the word does not matter (20_memory.md R66). -/
theorem memWriteWord_outside (cfg : Config S) {i : ℕ} (hi : cfg.sampTop.val < i) (w : CellWord) (b : Block S) :
    memWriteWord cfg i w b = b.respond .hostFault := by
  obtain ⟨-, h⟩ | ⟨x, -, h⟩ := memWriteWord_cases cfg i w b
  · exact h
  · rw [h]
    exact memWrite_outside cfg .smp i _ b hi

/-! ### Accesses that end in a `HostFault` -/

theorem exec_eq_hostFault {i : Instr} {s : State} (h : execBlock i s.toBlock = s.toBlock.respond .hostFault) :
    exec i s = .next { s with port := .hostFault } := by
  rw [exec_eq, State.onBlock, h]
  rfl

/-- Settles O22: the index is tested before `BUSY` and before the word's width can matter. -/
theorem accessOutsideSpaceIsHostFault : Obligations.AccessOutsideSpaceIsHostFault := by
  intro s i v b x
  refine ⟨fun hi => ⟨?_, ?_⟩, fun hi => ⟨?_, ?_⟩, fun hi => ⟨?_, ?_⟩⟩ <;> apply exec_eq_hostFault
  · exact memRead_outside _ .reg i _ hi
  · exact memWrite_outside _ .reg i _ _ hi
  · exact memRead_outside _ .msg i _ hi
  · exact memWrite_outside _ .msg i _ _ hi
  · exact memRead_outside _ .smp i _ hi
  · exact memWriteWord_outside _ hi x _

/-- Settles O21: the machine's coding gives a value for exactly the words of its width. -/
theorem sampleWordsHaveTheMachinesWidth : Obligations.SampleWordsHaveTheMachinesWidth := by
  refine ⟨fun s i w hw => ?_, fun s i x => ?_, fun x => ?_⟩
  · exact exec_eq_hostFault (memWriteWord_none (sampleOfWord_chip_none w hw) i s.toBlock)
  · have hblock : execBlock (.wrSmp i ⟨Config.chipWidth, x⟩) s.toBlock =
        memWrite Config.chip .smp i (storeSmp i (Config.chipDec x)) s.toBlock :=
      memWriteWord_some (sampleOfWord_chip x) i s.toBlock
    rw [exec_eq, State.onBlock, hblock]
    rfl
  · simp [wordOfSample, Config.chip, Config.chipCoding]

/-! ### What a write leaves unchanged -/

/-- A write keeps whatever its write rule and the port's answer keep. -/
theorem memWrite_keeps {α : Type} {view : Block S → α} (hview : ∀ b r, view (b.respond r) = view b) (cfg : Config S)
    (sp : Space) (i : ℕ) {store : Block S → Block S} {b : Block S} (hstore : view (store b) = view b) :
    view (memWrite cfg sp i store b) = view b := by
  obtain ⟨r, h⟩ | ⟨-, -, h⟩ := memWrite_cases cfg sp i store b
  · rw [h, hview]
  · rw [h, hview, hstore]

/-- The same of a sample written as a word. -/
theorem memWriteWord_keeps {α : Type} {view : Block S → α} (hview : ∀ b r, view (b.respond r) = view b)
    (cfg : Config S) (i : ℕ) (w : CellWord) {b : Block S} (hstore : ∀ x, view (storeSmp i x b) = view b) :
    view (memWriteWord cfg i w b) = view b := by
  obtain ⟨-, h⟩ | ⟨x, -, h⟩ := memWriteWord_cases cfg i w b
  · rw [h, hview]
  · rw [h, memWrite_keeps hview cfg .smp i (hstore x)]

/-- Writing a register, `CMD` among them, writes no cell. -/
theorem storeReg_cells (r : ℕ) (v : Word) (b : Block S) :
    (storeReg r v b).msg = b.msg ∧ (storeReg r v b).smp = b.smp := by
  unfold storeReg
  split_ifs
  · obtain ⟨-, h⟩ | ⟨-, h⟩ := dispatch_cases v b <;> simp [h]
  · simp

@[simp] theorem readReg_respond (b : Block S) (a : Response S) (r : ℕ) : (b.respond a).readReg r = b.readReg r := rfl
@[simp] theorem readReg_storeMsg (b : Block S) (i : ℕ) (v : Byte) (r : ℕ) :
    (storeMsg i v b).readReg r = b.readReg r := rfl
@[simp] theorem readReg_storeSmp (b : Block S) (i : ℕ) (x : S) (r : ℕ) :
    (storeSmp i x b).readReg r = b.readReg r := rfl

/-- Settles O28: each write rule touches its own space. -/
theorem spacesAreDisjoint : Obligations.SpacesAreDisjoint := by
  intro s i v c b x
  refine ⟨⟨_, exec_eq _ s, ?_, ?_⟩, ⟨_, exec_eq _ s, ?_, ?_⟩, ⟨_, exec_eq _ s, ?_, fun r => ?_⟩,
    _, exec_eq _ s, ?_, fun r => ?_⟩
  · exact memWrite_keeps respond_msg Config.chip .reg i (storeReg_cells i v _).1
  · exact memWrite_keeps respond_smp Config.chip .reg i (storeReg_cells i v _).2
  · exact memWrite_keeps respond_msg Config.chip .reg 0 (storeReg_cells 0 c _).1
  · exact memWrite_keeps respond_smp Config.chip .reg 0 (storeReg_cells 0 c _).2
  · exact memWrite_keeps respond_smp Config.chip .msg i (storeMsg_smp _ i b)
  · exact memWrite_keeps (view := (·.readReg r)) (readReg_respond · · r) Config.chip .msg i (readReg_storeMsg _ i b r)
  · exact memWriteWord_keeps respond_msg Config.chip i x (storeSmp_msg _ i)
  · exact memWriteWord_keeps (view := (·.readReg r)) (readReg_respond · · r) Config.chip i x (readReg_storeSmp _ i · r)

/-! ### The cells and results a command leaves unchanged -/

/-- An encode writes no sample cell from `T` on (40_encode.md R131). -/
theorem read_encodeStep_smp (cfg : Config S) (v : DurationRule) (s : Block S) {n : ℕ} (hn : encodeTotal v s ≤ n) :
    Memory.read (encodeStep cfg v s).smp n = Memory.read s.smp n := by
  obtain ⟨e, -, h⟩ | ⟨-, -, h⟩ | ⟨-, -, h⟩ := encodeStep_cases cfg v s <;> rw [h]
  · rfl
  · rfl
  · simp [read_writePrefix, Nat.not_lt.2 hn]

/-- An encode that does not succeed stores no result and no sample (60_exceptions.md R240). -/
theorem encodeStep_unsuccessful {cfg : Config S} {v : DurationRule} {s : Block S}
    (hstatus : (encodeStep cfg v s).status ≠ successWord) :
    (encodeStep cfg v s).slen = s.slen ∧ (encodeStep cfg v s).wrate = s.wrate ∧
      (encodeStep cfg v s).nbits = s.nbits ∧ (encodeStep cfg v s).spb = s.spb ∧ (encodeStep cfg v s).smp = s.smp := by
  obtain ⟨e, -, h⟩ | ⟨-, -, h⟩ | ⟨-, -, h⟩ := encodeStep_cases cfg v s
  · simp [h]
  · simp [h]
  · simp [h] at hstatus

/-- A decode writes no message cell from `B div 8` on, whether it commits or met a non-number (41_decode.md R163). -/
theorem read_decodeStep_msg [Inhabited S] (cfg : Config S) (s : Block S) {c : ℕ} (hc : decodeCount s / 8 ≤ c) :
    Memory.read (decodeStep cfg s).msg c = Memory.read s.msg c := by
  obtain ⟨e, -, h⟩ | ⟨-, -, h⟩ | ⟨-, -, h⟩ := decodeStep_cases cfg s <;> rw [h]
  · rfl
  · simp [read_writePrefix, Nat.not_lt.2 hc]
  · simp [read_writePrefix, Nat.not_lt.2 hc]

/-- The encode command of a duration rule is its engine step. -/
theorem exec_encode {v : DurationRule} {i : Instr} (hi : v = .derived ∧ i = .encd ∨ v = .explicit ∧ i = .encx)
    (s : State) : exec i s = .next (s.onBlock (encodeStep Config.chip v)) := by
  obtain ⟨rfl, rfl⟩ | ⟨rfl, rfl⟩ := hi <;> rw [exec_eq] <;> rfl

/-- Settles O36: the frame of the engine step, cell by cell. -/
theorem encodeFrame : Obligations.EncodeFrame := by
  intro s v i hi
  obtain ⟨hsrate, hf0, hf1, hdur, hmlen, hpend, hmsg, hport⟩ := encodeStep_frame Config.chip v s.toBlock
  refine ⟨_, exec_encode hi s, hsrate, hf0, hf1, hdur, hmlen, hpend, hport, rfl, fun c => by rw [onBlock_toBlock, hmsg],
    fun n hn => read_encodeStep_smp Config.chip v s.toBlock hn, fun hstatus => ?_⟩
  obtain ⟨hslen, hwrate, hnbits, hspb, hsmp⟩ := encodeStep_unsuccessful hstatus
  exact ⟨hslen, hwrate, hnbits, hspb, fun n => by rw [onBlock_toBlock, hsmp]⟩

/-- Settles O47: the frame of the engine step, cell by cell. Protected, for the decoder has the same name. -/
protected theorem decodeFrame : Obligations.DecodeFrame := by
  intro s
  obtain ⟨hsrate, hwrate, hf0, hf1, hdur, hslen, hpend, hsmp, hport⟩ := decodeStep_frame Config.chip s.toBlock
  exact ⟨_, exec_eq .dec s, hsrate, hwrate, hf0, hf1, hdur, hslen, hpend, hport, rfl,
    fun n => congrArg (Memory.read · n) hsmp, fun c hc => read_decodeStep_msg Config.chip s.toBlock hc⟩

/-! ### A step of the machine is a step of the relation -/

/-- The engine's turn while busy is the relation's engine step. -/
theorem engineMove_of_pendingCommand {s : State} {i : Instr} (h : pendingCommand s = some i) :
    engineMove Config.chip s.toBlock = some (execBlock i s.toBlock) := by
  obtain ⟨hpend, hi⟩ | ⟨hpend, hi⟩ | ⟨hpend, hi⟩ | ⟨-, hi⟩ := pendingCommand_cases s <;> cases hi.symm.trans h
  · rw [engineMove, hpend]; rfl
  · rw [engineMove, hpend]; rfl
  · rw [engineMove, hpend]; rfl

/-- An engine's turn is the relation's engine step, or finds the block idle and leaves it as it is. -/
theorem engineTurn_move {s t : State} (h : engineTurn s = .next t) :
    (∃ m, blockStep Config.chip m s.toBlock = some t.toBlock) ∨ s.busy = false ∧ t.toBlock = s.toBlock := by
  obtain ⟨hbusy, i, hpending, hexec⟩ | ⟨hidle, rfl⟩ := engineTurn_next h
  · left
    rw [exec_next_iff] at hexec
    exact ⟨.engine, by rw [blockStep, if_pos hbusy, engineMove_of_pendingCommand hpending, hexec, onBlock_toBlock]⟩
  · exact .inr ⟨hidle, rfl⟩

/-- A write is a move of the relation, but for a sample's word of another width. -/
theorem writeOf_move (sp : Space) (k : ℕ) (v : List Bool) (b : Block Sample) :
    (∃ m, blockStep Config.chip m b = some (execBlock (writeOf sp k v) b)) ∨
      ∃ w, writeOf sp k v = .wrSmp k w ∧ w.width ≠ Config.chipWidth ∧
        execBlock (writeOf sp k v) b = b.respond .hostFault := by
  cases sp with
  | reg =>
    by_cases hk : k = 0
    · subst hk
      exact .inl ⟨.writeReg 0 _, rfl⟩
    · rw [writeOf, if_neg hk]
      exact .inl ⟨.writeReg k _, rfl⟩
  | msg => exact .inl ⟨.writeMsg k _, rfl⟩
  | smp =>
    generalize hw : (⟨v.length, BitVec.ofNat v.length (natOf v)⟩ : CellWord) = w
    have hwrite : writeOf .smp k v = .wrSmp k w := by rw [← hw]; rfl
    rw [hwrite]
    by_cases hwidth : w.width = Config.chipWidth
    · obtain ⟨width, bits⟩ := w
      obtain rfl : width = Config.chipWidth := hwidth
      exact .inl ⟨.writeSmp k _, congrArg some (memWriteWord_some (sampleOfWord_chip bits) k b).symm⟩
    · exact .inr ⟨w, rfl, hwidth, memWriteWord_none (sampleOfWord_chip_none w hwidth) k b⟩

/-- A host access is a move of the relation, but for a sample's word of another width. -/
theorem hostTurn_move {f : Frame} {s t : State} (h : hostTurn f s = .next t) :
    (∃ m, blockStep Config.chip m s.toBlock = some t.toBlock) ∨
      ∃ k w, decodeFrame f = .ok (.wrSmp k w) ∧ w.width ≠ Config.chipWidth ∧
        t.toBlock = s.toBlock.respond .hostFault := by
  obtain ⟨i, hf, hexec⟩ := hostTurn_next h
  rw [exec_next_iff] at hexec
  subst hexec
  obtain ⟨sp, k, rfl⟩ | ⟨sp, k, v, rfl⟩ := decodeFrame_cases f i hf
  · exact .inl ⟨.read sp k, by cases sp <;> rfl⟩
  · obtain hmove | ⟨w, hw, hwidth, hfault⟩ := writeOf_move sp k v s.toBlock
    · exact .inl hmove
    · exact .inr ⟨k, w, hw ▸ hf, hwidth, hfault⟩

/-- Settles O13: head by head of the inputs, the turn is the relation's. -/
theorem everyStepIsAStepOfTheRelation : Obligations.EveryStepIsAStepOfTheRelation := by
  intro s t h
  unfold step at h
  cases hin : s.inputs with
  | nil =>
    rw [turn_nil s hin] at h
    exact (engineTurn_move h).imp_right fun ⟨hidle, ht⟩ => .inl ⟨hidle, .inl rfl, ht⟩
  | cons head rest =>
    cases head with
    | host f =>
      rw [turn_host s f rest hin] at h
      exact (hostTurn_move h).imp_right fun ⟨k, w, hf, hwidth, ht⟩ => .inr ⟨f, rest, k, w, rfl, hf, hwidth, ht⟩
    | engine =>
      rw [turn_engine s rest hin] at h
      exact (engineTurn_move h).imp_right fun ⟨hidle, ht⟩ => .inl ⟨hidle, .inr ⟨rest, rfl⟩, ht⟩
    | reset =>
      rw [turn_reset s rest hin] at h
      exact .inl ⟨.reset, by rw [← Host.Outcome.next.inj h]; rfl⟩

end Sys2Proof.Machine
end

section
/-! PROOFS, the encoding (30_encoding.md R92, R94, R106): numbers as bits, the two directions of the access patterns,
and the command words, written to `CMD` or placed next. -/

namespace Sys2Proof

/-! ### Numbers as bits -/

/-- The top bit at its weight and the number the lower bits write. -/
theorem testBit_mul_two_pow_add_mod (n v : ℕ) : (v.testBit n).toNat * 2 ^ n + v % 2 ^ n = v % 2 ^ (n + 1) := by
  rw [Nat.toNat_testBit, Nat.mod_pow_succ, Nat.mul_comm, Nat.add_comm]

theorem natOf_bitsOf (n v : ℕ) : natOf (bitsOf n v) = v % 2 ^ n := by
  induction n with
  | zero => simp [bitsOf, natOf, Nat.mod_one]
  | succ n ih => rw [bitsOf, natOf, ih, bitsOf_length, testBit_mul_two_pow_add_mod]

theorem natOf_bitsOf_of_lt {n v : ℕ} (h : v < 2 ^ n) : natOf (bitsOf n v) = v := by
  rw [natOf_bitsOf, Nat.mod_eq_of_lt h]

theorem ofNat_natOf_bitsOf {n : ℕ} (v : BitVec n) : BitVec.ofNat n (natOf (bitsOf n v.toNat)) = v := by
  rw [natOf_bitsOf_of_lt v.isLt, BitVec.ofNat_toNat, BitVec.setWidth_eq]

theorem natOf_lt (bs : List Bool) : natOf bs < 2 ^ bs.length := by
  induction bs with
  | nil => simp [natOf]
  | cons b bs ih => cases b <;> simp [natOf, Nat.pow_succ] <;> omega

/-- Below `2 ^ bs.length` lies the number of the tail, so the head can be told from the sum. -/
theorem eq_of_natOf_eq {as bs : List Bool} (hlen : as.length = bs.length) (h : natOf as = natOf bs) : as = bs := by
  induction as generalizing bs with
  | nil => exact (List.length_eq_zero_iff.1 hlen.symm).symm
  | cons a as ih =>
    cases bs with
    | nil => simp at hlen
    | cons b bs =>
      have hlen' : as.length = bs.length := by simpa using hlen
      have ha := natOf_lt as
      have hb := natOf_lt bs
      rw [natOf, natOf, hlen'] at h
      rw [hlen'] at ha
      obtain ⟨rfl, htail⟩ : a = b ∧ natOf as = natOf bs := by
        cases a <;> cases b <;> simp at h ⊢ <;> omega
      rw [ih hlen' htail]

theorem bitsOf_natOf {n : ℕ} {bs : List Bool} (h : bs.length = n) : bitsOf n (natOf bs) = bs :=
  eq_of_natOf_eq (by rw [bitsOf_length, h]) (natOf_bitsOf_of_lt (h ▸ natOf_lt bs))

theorem bitsOf_toNat_ofNat_natOf {n : ℕ} {bs : List Bool} (h : bs.length = n) :
    bitsOf n (BitVec.ofNat n (natOf bs)).toNat = bs := by
  rw [BitVec.toNat_ofNat, Nat.mod_eq_of_lt (h ▸ natOf_lt bs), bitsOf_natOf h]

/-! ### The access patterns -/

/-- The space code `ss` of a space (30_encoding.md R106). -/
def spaceCode : Space → List Bool
  | .reg => [false, false]
  | .msg => [false, true]
  | .smp => [true, false]

theorem spaceOf_eq_some_iff (s1 s0 : Bool) (sp : Space) : spaceOf s1 s0 = some sp ↔ spaceCode sp = [s1, s0] := by
  cases s1 <;> cases s0 <;> cases sp <;> decide

/-- The bits `d ss iiii.. vvvv..` of an access under a binding, with the instruction they stand for
(30_encoding.md R106). -/
inductive AccessForm (b : Binding) : List Bool → Instr → Prop
  | read (sp : Space) (idx : List Bool) (hidx : idx.length = b.idxBits) :
      AccessForm b (false :: (spaceCode sp ++ idx)) (readOf sp (natOf idx))
  | write (sp : Space) (idx val : List Bool) (hidx : idx.length = b.idxBits) (hval : carriesValue sp val = true) :
      AccessForm b (true :: (spaceCode sp ++ (idx ++ val))) (writeOf sp (natOf idx) val)

theorem AccessForm.of_decodeFrame {f : Frame} {i : Instr} (h : decodeFrame f = .ok i) :
    AccessForm f.binding f.bits i := by
  obtain ⟨b, bits⟩ := f
  unfold decodeFrame at h
  match bits, h with
  | [], h => cases h
  | [_], h => cases h
  | [_, _], h => cases h
  | d :: s1 :: s0 :: rest, h =>
    simp only at h
    cases hs : spaceOf s1 s0 with
    | none => simp [hs] at h
    | some sp =>
      simp only [hs] at h
      rw [spaceOf_eq_some_iff] at hs
      split_ifs at h with hshort hd hval hempty
      all_goals
        have hidx : (rest.take b.idxBits).length = b.idxBits :=
          le_antisymm (List.length_take_le _ _) (Nat.not_lt.1 hshort)
        obtain rfl := Except.ok.inj h
      · have hform := AccessForm.write sp _ _ hidx hval
        rwa [List.take_append_drop, hs, ← hd] at hform
      · have htake : rest.take b.idxBits = rest :=
          List.take_of_length_le (List.drop_eq_nil_iff.1 (List.isEmpty_iff.1 hempty))
        rw [htake] at hidx ⊢
        have hform := AccessForm.read sp rest hidx
        rwa [hs, ← Bool.eq_false_of_not_eq_true hd] at hform

theorem AccessForm.decodeFrame_eq {b : Binding} {bits : List Bool} {i : Instr} (h : AccessForm b bits i) :
    decodeFrame ⟨b, bits⟩ = .ok i := by
  cases h with
  | read sp idx hidx => cases sp <;> simp [decodeFrame, spaceCode, spaceOf, ← hidx]
  | write sp idx val hidx hval => cases sp <;> simp [decodeFrame, spaceCode, spaceOf, ← hidx, hval]

theorem encode_readOf (b : Binding) (sp : Space) (k : ℕ) :
    encode b (readOf sp k) = .access ⟨b, false :: (spaceCode sp ++ bitsOf b.idxBits k)⟩ := by
  cases sp <;> rfl

theorem encode_writeOf (b : Binding) (sp : Space) (k : ℕ) {val : List Bool} (hval : carriesValue sp val = true) :
    encode b (writeOf sp k val) = .access ⟨b, true :: (spaceCode sp ++ (bitsOf b.idxBits k ++ val))⟩ := by
  cases sp with
  | reg =>
    have hbits := bitsOf_toNat_ofNat_natOf (n := 32) (by simpa [carriesValue] using hval)
    by_cases hk : k = 0
    · rw [writeOf, if_pos hk, encode, hbits, hk]; rfl
    · rw [writeOf, if_neg hk, encode, hbits]; rfl
  | msg => rw [writeOf, encode, bitsOf_toNat_ofNat_natOf (by simpa [carriesValue] using hval)]; rfl
  | smp => rw [writeOf, encode, bitsOf_toNat_ofNat_natOf rfl]; rfl

theorem wellFormed_readOf (b : Binding) (sp : Space) (k : ℕ) :
    (readOf sp k).wellFormed b = true ↔ k < 2 ^ b.idxBits := by
  cases sp <;> simp [readOf, Instr.wellFormed]

theorem wellFormed_writeOf (b : Binding) (sp : Space) (k : ℕ) (val : List Bool) :
    (writeOf sp k val).wellFormed b = true ↔ k < 2 ^ b.idxBits := by
  cases sp with
  | reg => by_cases hk : k = 0 <;> simp [writeOf, Instr.wellFormed, hk]
  | msg => simp [writeOf, Instr.wellFormed]
  | smp => simp [writeOf, Instr.wellFormed]

/-- Settles O7: the index and the value are the bits of their numbers. -/
theorem accessEncodingIsUnique : Obligations.AccessEncodingIsUnique := by
  rintro ⟨b, bits⟩ i h
  cases AccessForm.of_decodeFrame h with
  | read sp idx hidx =>
    rw [encode_readOf, bitsOf_natOf hidx, wellFormed_readOf]
    exact ⟨rfl, hidx ▸ natOf_lt idx⟩
  | write sp idx val hidx hval =>
    rw [encode_writeOf b sp _ hval, bitsOf_natOf hidx, wellFormed_writeOf]
    exact ⟨rfl, hidx ▸ natOf_lt idx⟩

/-! ### The command words, and the round trip -/

theorem decodeCmd_of_reserved {c : Word} (h1 : c ≠ 1#32) (h2 : c ≠ 2#32) (h3 : c ≠ 3#32) :
    decodeCmd c = .reservedCmd c := by
  rw [decodeCmd, if_neg h1, if_neg h2, if_neg h3]

/-- Settles O4: the three words and every other one. -/
theorem commandDecodingComparesWholeWord : Obligations.CommandDecodingComparesWholeWord := by
  intro c
  obtain rfl | rfl | rfl | ⟨h1, h2, h3⟩ :
      c = 1#32 ∨ c = 2#32 ∨ c = 3#32 ∨ c ≠ 1#32 ∧ c ≠ 2#32 ∧ c ≠ 3#32 := by tauto
  · decide
  · decide
  · decide
  · simp [decodeCmd_of_reserved h1 h2 h3, h1, h2, h3]

/-- A well-formed instruction is a command word's, or a read, or a write of a value, at an index that fits its field. -/
theorem wellFormed_cases {b : Binding} {i : Instr} (h : i.wellFormed b = true) :
    (∃ c, encode b i = .cmdWord c ∧ decodeCmd c = i) ∨ (∃ sp k, k < 2 ^ b.idxBits ∧ i = readOf sp k) ∨
      ∃ sp k val, k < 2 ^ b.idxBits ∧ carriesValue sp val = true ∧ i = writeOf sp k val := by
  cases i with
  | encd => exact .inl ⟨_, rfl, rfl⟩
  | encx => exact .inl ⟨_, rfl, rfl⟩
  | dec => exact .inl ⟨_, rfl, rfl⟩
  | reservedCmd c =>
    obtain ⟨⟨h1, h2⟩, h3⟩ : (c ≠ 1#32 ∧ c ≠ 2#32) ∧ c ≠ 3#32 := by simpa [Instr.wellFormed] using h
    exact .inl ⟨c, rfl, decodeCmd_of_reserved h1 h2 h3⟩
  | rdReg k => exact .inr (.inl ⟨.reg, k, of_decide_eq_true h, rfl⟩)
  | rdMsg k => exact .inr (.inl ⟨.msg, k, of_decide_eq_true h, rfl⟩)
  | rdSmp k => exact .inr (.inl ⟨.smp, k, of_decide_eq_true h, rfl⟩)
  | wrReg k v =>
    obtain ⟨hk, hfits⟩ : k ≠ 0 ∧ k < 2 ^ b.idxBits := by simpa [Instr.wellFormed] using h
    refine .inr (.inr ⟨.reg, k, bitsOf 32 v.toNat, hfits, rfl, ?_⟩)
    rw [writeOf, if_neg hk, ofNat_natOf_bitsOf]
  | wrCmd c =>
    refine .inr (.inr ⟨.reg, 0, bitsOf 32 c.toNat, Nat.two_pow_pos _, rfl, ?_⟩)
    rw [writeOf, if_pos rfl, ofNat_natOf_bitsOf]
  | wrMsg k v =>
    refine .inr (.inr ⟨.msg, k, bitsOf 8 v.toNat, of_decide_eq_true h, rfl, ?_⟩)
    rw [writeOf, ofNat_natOf_bitsOf]
  | wrSmp k x =>
    refine .inr (.inr ⟨.smp, k, bitsOf x.width x.bits.toNat, of_decide_eq_true h, rfl, ?_⟩)
    rw [writeOf, bitsOf_length, ofNat_natOf_bitsOf]

/-- Settles O6: a command word is compared; an access has its pattern, whose index and value write their numbers. -/
theorem decodeOfEncodeIsIdentity : Obligations.DecodeOfEncodeIsIdentity := by
  intro b i h
  obtain ⟨c, hword, hdecode⟩ | ⟨sp, k, hk, rfl⟩ | ⟨sp, k, val, hk, hval, rfl⟩ := wellFormed_cases h
  · rw [hword, decode, hdecode]
  · have hform := AccessForm.read (b := b) sp (bitsOf b.idxBits k) (bitsOf_length _ k)
    rw [encode_readOf, decode, hform.decodeFrame_eq, natOf_bitsOf_of_lt hk]
  · have hform := AccessForm.write (b := b) sp (bitsOf b.idxBits k) val (bitsOf_length _ k) hval
    rw [encode_writeOf b sp k hval, decode, hform.decodeFrame_eq, natOf_bitsOf_of_lt hk]

/-- Settles O5: the words are literals. -/
theorem tableWordsDecodeToTheirInstructions : Obligations.TableWordsDecodeToTheirInstructions := by
  unfold Obligations.TableWordsDecodeToTheirInstructions
  decide

end Sys2Proof

namespace Sys2Proof.Machine

variable {S : Type}

/-! ### The command words at `CMD` and placed next -/

/-- The write rule of `CMD` on a reserved word (30_encoding.md R94). -/
theorem storeReg_cmd_reserved {c : Word} (h1 : c ≠ 1#32) (h2 : c ≠ 2#32) (h3 : c ≠ 3#32) :
    storeReg (S := S) 0 c = raise .usage := by
  funext b
  rw [storeReg, if_pos rfl, dispatch, decodeCmd_of_reserved h1 h2 h3]

theorem exec_reservedCmd_eq_wrCmd {c : Word} (h1 : c ≠ 1#32) (h2 : c ≠ 2#32) (h3 : c ≠ 3#32) (s : State) :
    exec (.reservedCmd c) s = exec (.wrCmd c) s := by
  rw [exec_eq, exec_eq, execBlock, execBlock, storeReg_cmd_reserved h1 h2 h3]

theorem exec_reservedCmd_idle (c : Word) {s : State} (hidle : s.busy = false) :
    exec (.reservedCmd c) s = .next { s with status := 0x00004006#32, port := .ok } := by
  rw [exec_eq, State.onBlock, execBlock, memWrite_idle _ _ _ _ _ (Nat.zero_le _) hidle]
  rfl

/-- Settles O25: `CMD` posts UsageError for a reserved word, as `RESERVED_CMD` does. -/
theorem reservedCommandPostsUsageError : Obligations.ReservedCommandPostsUsageError := by
  intro s c h1 h2 h3
  have hsame := exec_reservedCmd_eq_wrCmd h1 h2 h3 s
  exact ⟨decodeCmd_of_reserved h1 h2 h3,
    fun hidle => ⟨exec_reservedCmd_idle c hidle, hsame ▸ exec_reservedCmd_idle c hidle⟩, hsame⟩

/-- The engine's turn at the head runs the pending command (43_host_control.md R218). -/
theorem step_engine {s : State} {rest : List Input} (hin : s.inputs = .engine :: rest) (hbusy : s.busy = true)
    {i : Instr} (hi : pendingCommand s = some i) : step s = exec i { s with inputs := rest } := by
  have hpending : pendingCommand { s with inputs := rest } = some i := hi
  rw [step, turn_engine s rest hin, engineTurn, if_pos hbusy, hpending]

/-- The host's access at the head runs the instruction its bits decode to. -/
theorem step_host {s : State} {f : Frame} {rest : List Input} (hin : s.inputs = .host f :: rest) {i : Instr}
    (hf : decodeFrame f = .ok i) : step s = exec i { s with inputs := rest } := by
  rw [step, turn_host s f rest hin, hostTurn, hf]

theorem withFetchWord_cmdWord (s : State) (c : Word) : s.withFetchWord 32 c.toNat = placeNext s (.cmdWord c) := by
  simp [State.withFetchWord, placeTableWord, tableEncoded]

/-- A reserved word is placed as the host's write of it to `CMD` (log 1). -/
theorem placeNext_reserved (s : State) {c : Word} (h1 : c ≠ 1#32) (h2 : c ≠ 2#32) (h3 : c ≠ 3#32) :
    ∃ f, placeNext s (.cmdWord c) = { s with inputs := .host f :: s.inputs } ∧
      encode tableBinding (.wrCmd c) = .access f := by
  rw [placeNext, decodeCmd_of_reserved h1 h2 h3]
  exact ⟨_, rfl, rfl⟩

/-- A command is placed as accepted, with the engine's turn next (log 1), which runs it. -/
theorem step_withFetchWord_command (s : State) {c : Word} (hc : c = 1#32 ∨ c = 2#32 ∨ c = 3#32) :
    step (s.withFetchWord 32 c.toNat) = exec (decodeCmd c) (s.onBlock (accept c)) := by
  have hplaced : placeNext s (.cmdWord c) = { s.onBlock (accept c) with inputs := .engine :: s.inputs } := by
    obtain rfl | rfl | rfl := hc <;> rfl
  have hpending : pendingCommand { s.onBlock (accept c) with inputs := .engine :: s.inputs } = some (decodeCmd c) := by
    obtain rfl | rfl | rfl := hc <;> rfl
  rw [withFetchWord_cmdWord, hplaced, step_engine rfl (busy_accept _ c) hpending]
  rfl

/-- Settles O10: a command is placed accepted, with the engine's turn next; a reserved word as its write to `CMD`. -/
theorem placedWordRunsNext : Obligations.PlacedWordRunsNext := by
  intro s
  refine ⟨step_withFetchWord_command s (.inl rfl), step_withFetchWord_command s (.inr (.inl rfl)),
    step_withFetchWord_command s (.inr (.inr rfl)), fun c h1 h2 h3 => ?_⟩
  obtain ⟨f, hplaced, hencode⟩ := placeNext_reserved s h1 h2 h3
  have hdecode := decodeOfEncodeIsIdentity tableBinding (.wrCmd c) rfl
  rw [hencode] at hdecode
  rw [withFetchWord_cmdWord, hplaced, step_host rfl hdecode, exec_reservedCmd_eq_wrCmd h1 h2 h3]

end Sys2Proof.Machine
end

section
/-! PROOFS, the bits of a message (30_encoding.md R99, R100; 41_decode.md R161). -/

namespace Sys2Proof.Machine

@[simp] theorem bitsOfByte_length (b : Byte) : (bitsOfByte b).length = 8 := by
  simp [bitsOfByte]

theorem serialize_cons (b : Byte) (bytes : List Byte) : serialize (b :: bytes) = bitsOfByte b ++ serialize bytes := by
  simp [serialize]

theorem serialize_getElem? (bytes : List Byte) (c : ℕ) {p : ℕ} (hp : p < 8) :
    (serialize bytes)[8 * c + p]? = bytes[c]?.map (·.getLsbD (7 - p)) := by
  induction bytes generalizing c with
  | nil => simp [serialize]
  | cons b bytes ih =>
    rw [serialize_cons]
    cases c with
    | zero => simp [List.getElem?_append_left, bitsOfByte, hp]
    | succ c =>
      have hindex : 8 * (c + 1) + p - (bitsOfByte b).length = 8 * c + p := by rw [bitsOfByte_length]; omega
      rw [List.getElem?_append_right (by rw [bitsOfByte_length]; omega), hindex, ih, List.getElem?_cons_succ]

/-- Settles O40: eight bits a byte, bit `p` of each the byte's bit `7 - p`. -/
theorem serializerOrder : Obligations.SerializerOrder := fun bytes =>
  ⟨serialize_length bytes, fun c p b hb hp => by rw [serialize_getElem? bytes c hp, hb, Option.map_some]⟩

/-- A number is the sum of its low bits at their weights, the highest first. -/
theorem sum_testBit (n v : ℕ) :
    ((List.range n).map fun p => (v.testBit (n - 1 - p)).toNat * 2 ^ (n - 1 - p)).sum = v % 2 ^ n := by
  induction n with
  | zero => simp [Nat.mod_one]
  | succ n ih =>
    have hshift : ∀ p, n - 1 - p = n - (p + 1) := fun p => by omega
    rw [List.range_succ_eq_map, List.map_cons, List.map_map, List.sum_cons, ← testBit_mul_two_pow_add_mod, ← ih]
    simp only [Function.comp_def, Nat.succ_eq_add_one, Nat.add_sub_cancel, Nat.sub_zero, hshift]

/-- A group of bits that are a byte's, most significant first, is that byte (30_encoding.md R100). -/
theorem byteOfBits_eq {bits : List Bool} {c : ℕ} {b : Byte}
    (h : ∀ p < 8, bits.getD (8 * c + p) false = b.getLsbD (7 - p)) : byteOfBits bits c = b := by
  have hsum : ((List.range 8).map fun p => (bits.getD (8 * c + p) false).toNat * 2 ^ (7 - p)).sum =
      b.toNat % 2 ^ 8 := by
    rw [← sum_testBit]
    exact congrArg List.sum (List.map_congr_left fun p hp => by rw [h p (List.mem_range.1 hp)]; rfl)
  rw [byteOfBits, hsum, Nat.mod_eq_of_lt b.isLt, BitVec.ofNat_toNat, BitVec.setWidth_eq]

/-- Settles O49: each whole group is a byte of the message, and the tail is too short for another. -/
theorem deserializerInvertsSerializer : Obligations.DeserializerInvertsSerializer := by
  intro bytes tail htail
  refine List.ext_getElem (by simp; omega) fun c _ hc => ?_
  simp only [deserialize, List.getElem_map, List.getElem_range]
  refine byteOfBits_eq fun p hp => ?_
  rw [List.getD_eq_getElem?_getD, List.getElem?_append_left (by simp; omega), serialize_getElem? bytes c hp,
    List.getElem?_eq_getElem hc]
  rfl

end Sys2Proof.Machine
end

section
/-! PROOFS, the engine step of an encode (40_encode.md R120 to R122, R130, R131; 60_exceptions.md R243): the order of
its checks, what it does past them, and which state it reads. -/

namespace Sys2Proof.Machine

variable {S : Type}

/-! ### The step, outcome by outcome -/

theorem encodeStep_of_check {cfg : Config S} {v : DurationRule} {s : Block S} {e : ErrCode}
    (h : encodeCheck cfg v s = some e) : encodeStep cfg v s = raise e s := by
  rw [encodeStep, h]

theorem encodeStep_of_degenerate {cfg : Config S} {v : DurationRule} {s : Block S} (hcheck : encodeCheck cfg v s = none)
    (h : degenerate cfg.num (encodeSpb v s) (encodeWave cfg v s) = true) :
    encodeStep cfg v s = raise .degenerateSignal (s.drawn (uint s.mlen)) := by
  rw [encodeStep, hcheck]
  exact if_pos h

theorem encodeStep_of_commit {cfg : Config S} {v : DurationRule} {s : Block S} (hcheck : encodeCheck cfg v s = none)
    (h : degenerate cfg.num (encodeSpb v s) (encodeWave cfg v s) = false) :
    encodeStep cfg v s = commitEncode (normalizeWave cfg.num (encodeWave cfg v s)) (encodeBits s) (encodeSpb v s)
      (s.drawn (uint s.mlen)) := by
  rw [encodeStep, hcheck]
  exact if_neg (by simp [h])

theorem degenerate_eq_true {num : Num S} {p : ℕ} {w : List S} :
    degenerate num p w = true ↔ p = 0 ∨ num.isZero (num.absmax w) = true := by
  simp [degenerate]

/-! ### The checks in their order (60_exceptions.md R243) -/

theorem uint_ne_zero {v : Word} (h : v ≠ 0#32) : uint v ≠ 0 := fun h0 => h (BitVec.eq_of_toNat_eq h0)

section Checks

variable {cfg : Config S} {v : DurationRule} {s : Block S}

theorem encodeCheck_emptyMessage (hlen : s.mlen = 0#32) : encodeCheck cfg v s = some .emptyMessage := by
  rw [encodeCheck, if_pos (by rw [hlen]; rfl)]

theorem encodeCheck_sampleRate (hlen : s.mlen ≠ 0#32) (hrate : sint s.srate ≤ 0) :
    encodeCheck cfg v s = some .sampleRate := by
  rw [encodeCheck, if_neg (uint_ne_zero hlen), if_pos hrate]

/-- Past the message and the rate, the tones are next. -/
theorem encodeCheck_f0 (hlen : s.mlen ≠ 0#32) (hrate : 0 < sint s.srate) (hf0 : sint s.f0 ≤ 0) :
    encodeCheck cfg v s = some .f0 := by
  rw [encodeCheck, if_neg (uint_ne_zero hlen), if_neg (not_le.2 hrate), if_pos hf0]

theorem encodeCheck_f1 (hlen : s.mlen ≠ 0#32) (hrate : 0 < sint s.srate) (hf0 : 0 < sint s.f0)
    (hf1 : sint s.f1 ≤ 0) : encodeCheck cfg v s = some .f1 := by
  rw [encodeCheck, if_neg (uint_ne_zero hlen), if_neg (not_le.2 hrate), if_neg (not_le.2 hf0), if_pos hf1]

variable (hlen : s.mlen ≠ 0#32) (hrate : 0 < sint s.srate) (hf0 : 0 < sint s.f0) (hf1 : 0 < sint s.f1)
include hlen hrate hf0 hf1

/-- With a message, a rate and tones, the duration and the capacities are left to check. -/
theorem encodeCheck_of_parameters : encodeCheck cfg v s =
    if v = .explicit ∧ sint s.dur ≤ 0 then some .duration
    else if cfg.msgMax < uint s.mlen then some .capMessage
    else if cfg.sampMax < encodeTotal v s then some .capSamples
    else none := by
  rw [encodeCheck, if_neg (uint_ne_zero hlen), if_neg (not_le.2 hrate), if_neg (not_le.2 hf0), if_neg (not_le.2 hf1)]

theorem encodeCheck_duration (hdur : sint s.dur ≤ 0) : encodeCheck cfg .explicit s = some .duration := by
  rw [encodeCheck_of_parameters hlen hrate hf0 hf1, if_pos ⟨rfl, hdur⟩]

variable (hdur : v = .explicit → 0 < sint s.dur)
include hdur

theorem encodeCheck_capMessage (hmax : cfg.msgMax < uint s.mlen) : encodeCheck cfg v s = some .capMessage := by
  rw [encodeCheck_of_parameters hlen hrate hf0 hf1, if_neg fun h => not_le.2 (hdur h.1) h.2, if_pos hmax]

theorem encodeCheck_capSamples (hmax : uint s.mlen ≤ cfg.msgMax) (htotal : cfg.sampMax < encodeTotal v s) :
    encodeCheck cfg v s = some .capSamples := by
  rw [encodeCheck_of_parameters hlen hrate hf0 hf1, if_neg fun h => not_le.2 (hdur h.1) h.2, if_neg (not_lt.2 hmax),
    if_pos htotal]

theorem encodeCheck_eq_none (hmax : uint s.mlen ≤ cfg.msgMax) (htotal : encodeTotal v s ≤ cfg.sampMax) :
    encodeCheck cfg v s = none := by
  rw [encodeCheck_of_parameters hlen hrate hf0 hf1, if_neg fun h => not_le.2 (hdur h.1) h.2, if_neg (not_lt.2 hmax),
    if_neg (not_lt.2 htotal)]

end Checks

/-- Settles O30: each clause's conditions are those under which its check is the first to fail. -/
theorem encodeReportsFirstFailingCheck : Obligations.EncodeReportsFirstFailingCheck := by
  refine ⟨fun s => ⟨exec_eq .encd s, exec_eq .encx s⟩, fun S cfg s => ⟨fun hlen => ?_, fun hlen hrate => ?_,
    fun hlen hrate => ⟨fun hf0 => ?_, fun hf0 hf1 => ?_, fun hf0 hf1 => ⟨fun hdur => ?_,
      fun hmax => ⟨?_, fun hdur => ?_⟩, fun hmax => ⟨fun htotal => ?_, fun hdur htotal => ?_⟩⟩⟩⟩⟩
  · exact ⟨encodeStep_of_check (encodeCheck_emptyMessage hlen), encodeStep_of_check (encodeCheck_emptyMessage hlen)⟩
  · exact ⟨encodeStep_of_check (encodeCheck_sampleRate hlen hrate),
      encodeStep_of_check (encodeCheck_sampleRate hlen hrate)⟩
  · exact ⟨encodeStep_of_check (encodeCheck_f0 hlen hrate hf0), encodeStep_of_check (encodeCheck_f0 hlen hrate hf0)⟩
  · exact ⟨encodeStep_of_check (encodeCheck_f1 hlen hrate hf0 hf1),
      encodeStep_of_check (encodeCheck_f1 hlen hrate hf0 hf1)⟩
  · exact encodeStep_of_check (encodeCheck_duration hlen hrate hf0 hf1 hdur)
  · exact encodeStep_of_check (encodeCheck_capMessage (v := .derived) hlen hrate hf0 hf1 nofun hmax)
  · exact encodeStep_of_check (encodeCheck_capMessage hlen hrate hf0 hf1 (fun _ => hdur) hmax)
  · exact encodeStep_of_check (encodeCheck_capSamples (v := .derived) hlen hrate hf0 hf1 nofun hmax htotal)
  · exact encodeStep_of_check (encodeCheck_capSamples (v := .explicit) hlen hrate hf0 hf1 (fun _ => hdur) hmax htotal)

/-! ### Past the checks -/

/-- Settles O33: with fewer samples than bits `T div B` is 0. -/
theorem encodeWithoutWindowsIsDegenerate : Obligations.EncodeWithoutWindowsIsDegenerate := by
  intro s v i hi hcheck htotal
  have hspb : encodeSpb v s.toBlock = 0 := Nat.div_eq_of_lt htotal
  rw [exec_encode hi, State.onBlock, encodeStep_of_degenerate hcheck (degenerate_eq_true.2 (.inl hspb))]
  rfl

/-- The waveform of an encode, sample by sample (40_encode.md R127, R128). -/
theorem encodeWave_eq_map (cfg : Config S) (v : DurationRule) (s : Block S) : encodeWave cfg v s =
    (List.range (encodeTotal v s)).map fun n =>
      if n < encodeBits s * encodeSpb v s then
        cfg.num.sin2pi (phase (tone (toneHz s.f0) (toneHz s.f1)
          ((serialize (messageBytes s (uint s.mlen))).getD (n / encodeSpb v s) false))
          (encodeDuration v s) (encodeTotal v s) n)
      else cfg.num.zero := by
  rw [encodeWave, waveform, serialize_length, messageBytes_length]
  rfl

/-- Past its checks an encode ends in DegenerateSignal or commits, and writes nothing else (40_encode.md R130, R131). -/
theorem encodeStep_of_check_none {cfg : Config S} {v : DurationRule} {s : Block S}
    (hcheck : encodeCheck cfg v s = none) :
    encodeStep cfg v s =
      if encodeSpb v s = 0 ∨ cfg.num.isZero (cfg.num.absmax (encodeWave cfg v s)) = true then
        { s with status := errorWord .degenerateSignal, draws := s.draws + uint s.mlen }
      else
        { s with
          smp := Memory.writePrefix s.smp (normalizeWave cfg.num (encodeWave cfg v s))
          slen := BitVec.ofNat 32 (encodeTotal v s)
          wrate := s.srate
          nbits := BitVec.ofNat 32 (encodeBits s)
          spb := BitVec.ofNat 32 (encodeSpb v s)
          status := successWord
          draws := s.draws + uint s.mlen } := by
  split_ifs with h <;> rw [← degenerate_eq_true] at h
  · exact encodeStep_of_degenerate hcheck h
  · rw [encodeStep_of_commit hcheck (Bool.eq_false_of_not_eq_true h), commitEncode, normalizeWave_length,
      encodeWave_length]
    rfl

/-- Settles O34: `ENCD` is the encode with the derived duration. -/
theorem encdSynthesizesAndCommits : Obligations.EncdSynthesizesAndCommits := by
  refine ⟨exec_eq .encd, ?_⟩
  rintro S cfg s len B T spb D bits w rfl rfl rfl rfl rfl rfl rfl hlen hrate hf0 hf1 hmax htotal
  have hcheck := encodeCheck_eq_none (v := .derived) hlen hrate hf0 hf1 nofun hmax htotal
  have hstep := encodeStep_of_check_none hcheck
  rw [encodeWave_eq_map] at hstep
  exact hstep

/-- Settles O35: `ENCX` is the encode with the explicit duration. -/
theorem encxSynthesizesAndCommits : Obligations.EncxSynthesizesAndCommits := by
  refine ⟨exec_eq .encx, ?_⟩
  rintro S cfg s len B T spb D bits w rfl rfl rfl rfl rfl rfl rfl hlen hrate hf0 hf1 hdur hmax htotal
  have hcheck := encodeCheck_eq_none (v := .explicit) hlen hrate hf0 hf1 (fun _ => hdur) hmax htotal
  have hstep := encodeStep_of_check_none hcheck
  rw [encodeWave_eq_map] at hstep
  exact hstep

/-! ### What an encode reads (40_encode.md R132) -/

/-- The two blocks agree in what an encode reads: the parameter registers, `DUR` for `ENCX`, and a written message. -/
structure SameOperands (v : DurationRule) (s s' : Block S) : Prop where
  srate : s.srate = s'.srate
  f0 : s.f0 = s'.f0
  f1 : s.f1 = s'.f1
  mlen : s.mlen = s'.mlen
  dur : v = .explicit → s.dur = s'.dur
  msg : ∀ c < s.mlen.toNat, ∃ b, Memory.read s.msg c = some b ∧ Memory.read s'.msg c = some b

namespace SameOperands

variable {v : DurationRule} {s s' : Block S}

theorem encodeBits_eq (h : SameOperands v s s') : encodeBits s = encodeBits s' := by
  rw [encodeBits, encodeBits, h.mlen]

theorem encodeDuration_eq (h : SameOperands v s s') : encodeDuration v s = encodeDuration v s' := by
  cases v with
  | derived => rw [encodeDuration, encodeDuration, h.encodeBits_eq]
  | explicit => rw [encodeDuration, encodeDuration, h.dur rfl]

theorem encodeTotal_eq (h : SameOperands v s s') : encodeTotal v s = encodeTotal v s' := by
  rw [encodeTotal, encodeTotal, h.encodeDuration_eq, h.srate]

theorem encodeSpb_eq (h : SameOperands v s s') : encodeSpb v s = encodeSpb v s' := by
  rw [encodeSpb, encodeSpb, h.encodeTotal_eq, h.encodeBits_eq]

/-- Where the message is written no free value is read. -/
theorem messageBytes_eq (h : SameOperands v s s') :
    messageBytes s (uint s.mlen) = messageBytes s' (uint s'.mlen) := by
  rw [← h.mlen]
  refine List.map_congr_left fun c hc => ?_
  obtain ⟨b, hs, hs'⟩ := h.msg c (List.mem_range.1 hc)
  rw [messageByte, messageByte, hs, hs', Option.getD_some, Option.getD_some]

theorem encodeWave_eq (h : SameOperands v s s') (cfg : Config S) : encodeWave cfg v s = encodeWave cfg v s' := by
  rw [encodeWave, encodeWave, h.messageBytes_eq, h.encodeTotal_eq, h.encodeSpb_eq, h.encodeDuration_eq, h.f0, h.f1]

theorem encodeCheck_eq (h : SameOperands v s s') (cfg : Config S) : encodeCheck cfg v s = encodeCheck cfg v s' := by
  have hdur : (v = .explicit ∧ sint s.dur ≤ 0) = (v = .explicit ∧ sint s'.dur ≤ 0) :=
    propext (and_congr_right fun hv => by rw [h.dur hv])
  simp only [encodeCheck, h.mlen, h.srate, h.f0, h.f1, hdur, h.encodeTotal_eq]

/-- Both encodes have the same outcome, and on success store the same. -/
theorem encodeStep_eq (h : SameOperands v s s') (cfg : Config S) :
    (∃ e, encodeStep cfg v s = raise e s ∧ encodeStep cfg v s' = raise e s') ∨
      encodeStep cfg v s = raise .degenerateSignal (s.drawn (uint s.mlen)) ∧
        encodeStep cfg v s' = raise .degenerateSignal (s'.drawn (uint s'.mlen)) ∨
      ∃ out B p, encodeStep cfg v s = commitEncode out B p (s.drawn (uint s.mlen)) ∧
        encodeStep cfg v s' = commitEncode out B p (s'.drawn (uint s'.mlen)) := by
  obtain ⟨e, hcheck, hs⟩ | ⟨hcheck, hd, hs⟩ | ⟨hcheck, hd, hs⟩ := encodeStep_cases cfg v s <;> rw [hs]
  all_goals rw [h.encodeCheck_eq cfg] at hcheck
  · exact .inl ⟨e, rfl, encodeStep_of_check hcheck⟩
  all_goals rw [h.encodeWave_eq cfg, h.encodeSpb_eq] at hd
  · exact .inr (.inl ⟨rfl, encodeStep_of_degenerate hcheck hd⟩)
  · refine .inr (.inr ⟨_, _, _, rfl, ?_⟩)
    rw [h.encodeWave_eq cfg, h.encodeBits_eq, h.encodeSpb_eq]
    exact encodeStep_of_commit hcheck hd

end SameOperands

/-- Settles O44: the checks, the counts and the waveform are functions of the operands. -/
theorem encodeDependsOnlyOnItsOperands : Obligations.EncodeDependsOnlyOnItsOperands := by
  refine ⟨fun s => ⟨exec_eq .encd s, exec_eq .encx s⟩, ?_⟩
  rintro S cfg s s' t t' v hsrate hf0 hf1 hmlen hdur hmsg rfl rfl
  have hsame : SameOperands v s s' := ⟨hsrate, hf0, hf1, hmlen, hdur, hmsg⟩
  obtain ⟨e, hs, hs'⟩ | ⟨hs, hs'⟩ | ⟨out, B, p, hs, hs'⟩ := hsame.encodeStep_eq cfg <;> rw [hs, hs']
  · exact ⟨rfl, fun h => absurd h (errorWord_ne_successWord e)⟩
  · exact ⟨rfl, fun h => absurd h (errorWord_ne_successWord _)⟩
  · refine ⟨rfl, fun _ => ⟨rfl, hsrate, rfl, rfl, fun n hn => ?_⟩⟩
    have hlen : n < out.length := hn.trans_le (by simpa using Nat.mod_le out.length _)
    simp [read_writePrefix, hlen]

end Sys2Proof.Machine
end

section
/-! PROOFS, the counts and the phase of an `ENCD` (40_encode.md R124, R134) and the tone generator (R127, R128). -/

namespace Sys2Proof.Machine

variable {S : Type}

/-! ### The sample count of an `ENCD` -/

/-- Tenths of an integer that are no tie round to the nearest integer (42_shared_numerics.md R184). -/
theorem rhe_div_ten {n : ℕ} (h : n % 10 ≠ 5) : rhe ((n : ℚ) / 10) = (n + 5) / 10 := by
  have hsplit : (n : ℚ) = 10 * (n / 10 : ℕ) + (n % 10 : ℕ) := by exact_mod_cast (Nat.div_add_mod n 10).symm
  have hfloor : ⌊(n : ℚ) / 10⌋ = (n / 10 : ℕ) := by exact_mod_cast Rat.floor_natCast_div_natCast n 10
  have hrest : (n : ℚ) / 10 - ((n / 10 : ℕ) : ℤ) = (n % 10 : ℕ) / 10 := by
    rw [Int.cast_natCast]
    linarith
  have htie : ((n % 10 : ℕ) : ℚ) / 10 ≠ 1 / 2 := by
    rw [Ne, div_eq_div_iff (by norm_num) two_ne_zero]
    norm_cast
    omega
  have hup : 1 / 2 < ((n % 10 : ℕ) : ℚ) / 10 ↔ 5 < n % 10 := by
    rw [div_lt_div_iff₀ two_pos (by norm_num)]
    norm_cast
    omega
  simp only [rhe, hfloor, hrest, htie, hup, false_and, if_false]
  split_ifs <;> omega

/-- Eight times anything is even, and so never 5 modulo 10. -/
theorem eight_mul_mod_ten_ne_five (n r : ℕ) : 8 * n * r % 10 ≠ 5 := by
  rw [Nat.mul_assoc]
  omega

theorem encodeTotal_derived {s : Block S} (hrate : 0 ≤ s.srate.toInt) :
    encodeTotal .derived s = (8 * s.mlen.toNat * s.srate.toInt.toNat + 5) / 10 := by
  rw [← rhe_div_ten (eight_mul_mod_ten_ne_five _ _)]
  have hcast : (s.srate.toInt.toNat : ℚ) = (s.srate.toInt : ℚ) := by exact_mod_cast Int.toNat_of_nonneg hrate
  rw [encodeTotal, encodeDuration, encodeBits, sint, uint]
  congr 1
  push_cast [hcast]
  ring

/-- Settles O37: `B` is even, so `B * sr / 10` is no tie. -/
theorem encdTotalIsNearestInteger : Obligations.EncdTotalIsNearestInteger := by
  intro S s hrate
  rw [encodeTotal_derived hrate.le]
  exact ⟨rfl, eight_mul_mod_ten_ne_five _ _, fun hexact => by omega⟩

/-! ### Rates that are multiples of 10 -/

/-- With `B * k` samples in `B / 10` seconds, sample `n` is at `n / (10 k)` seconds (40_encode.md R134). -/
theorem phase_mul_ten {B k : ℕ} (hB : B ≠ 0) (hk : k ≠ 0) (f : ℚ) (n : ℕ) :
    phase f ((B : ℚ) / 10) (B * k) n = f * n / (10 * k) := by
  have hB' : (B : ℚ) ≠ 0 := by exact_mod_cast hB
  have hk' : (k : ℚ) ≠ 0 := by exact_mod_cast hk
  rw [phase]
  push_cast
  field_simp

/-- Settles O38: `B * sr / 10` is the integer `B * k`. -/
theorem encdClosedFormAtMultiplesOfTen : Obligations.EncdClosedFormAtMultiplesOfTen := by
  intro S s k hlen hk hrate
  have hB : 8 * s.mlen.toNat ≠ 0 := Nat.mul_ne_zero (by decide) (uint_ne_zero hlen)
  have htotal : encodeTotal .derived s = 8 * s.mlen.toNat * k := by
    have hnat : s.srate.toInt.toNat = 10 * k := by omega
    rw [encodeTotal_derived (by omega), hnat, Nat.mul_left_comm]
    omega
  refine ⟨htotal, ?_, fun f n => ?_⟩
  · rw [encodeSpb, htotal]
    exact Nat.mul_div_cancel_left k (Nat.pos_of_ne_zero hB)
  · rw [htotal]
    exact phase_mul_ten hB hk.ne' f n

/-! ### The tone generator -/

/-- Sample `m` of the window of bit `i` lies in that window. -/
theorem window_index {i m p : ℕ} (hm : m < p) : (i * p + m) / p = i := by
  rw [Nat.mul_comm, Nat.mul_add_div (by omega), Nat.div_eq_of_lt hm, Nat.add_zero]

theorem window_lt {i m p B : ℕ} (hi : i < B) (hm : m < p) : i * p + m < B * p :=
  calc i * p + m < (i + 1) * p := by rw [Nat.succ_mul]; omega
    _ ≤ B * p := Nat.mul_le_mul_right p hi

/-- Sample `m` of window `i` is the tone of bit `i` (40_encode.md R127). -/
theorem waveform_window (num : Num S) {bits : List Bool} {T p i m : ℕ} (D f0 f1 : ℚ) (hT : bits.length * p ≤ T)
    {b : Bool} (hb : bits[i]? = some b) (hm : m < p) :
    (waveform num bits T p D f0 f1)[i * p + m]? = some (num.sin2pi (phase (tone f0 f1 b) D T (i * p + m))) := by
  obtain ⟨hi, -⟩ := List.getElem?_eq_some_iff.1 hb
  have hn := window_lt hi hm
  rw [List.getElem?_eq_getElem (by rw [waveform_length]; omega), waveform_getElem, if_pos hn, window_index hm,
    List.getD_eq_getElem?_getD, hb, Option.getD_some]

/-- Settles O41: the windows and the rest, index by index. -/
theorem toneGeneratorFillsWindows : Obligations.ToneGeneratorFillsWindows := by
  intro S num bits T spb D f0 f1 hT
  refine ⟨waveform_length num bits T spb D f0 f1, fun i m b hb hm => ?_, fun n hle hn => ?_⟩
  · exact waveform_window num D f0 f1 hT hb hm
  · rw [List.getElem?_eq_getElem (by rwa [waveform_length]), waveform_getElem, if_neg (Nat.not_lt.2 hle)]

end Sys2Proof.Machine
end

section
/-! PROOFS, the spectrum of a sampled sine over `NUM_REAL` (41_decode.md R158; 42_shared_numerics.md R195, R198): its
two bins, and its peak. -/

namespace Sys2Proof.Machine

open Complex in
/-- The sum of the `L` powers of an `L`-th root of unity: `L` of the root 1, else 0. -/
theorem sum_exp_turns {L : ℕ} (hL : 0 < L) (a : ℤ) :
    ∑ m ∈ Finset.range L, exp (2 * Real.pi * I * a * m / L) = if (L : ℤ) ∣ a then (L : ℂ) else 0 := by
  have hL' : (L : ℂ) ≠ 0 := by exact_mod_cast hL.ne'
  have hpow : ∀ m : ℕ, exp (2 * Real.pi * I * a * m / L) = exp (a / L * (2 * Real.pi * I)) ^ m := fun m => by
    rw [← exp_nat_mul]
    congr 1
    ring
  simp only [hpow]
  have hone : exp (a / L * (2 * Real.pi * I)) = 1 ↔ (L : ℤ) ∣ a := by
    rw [exp_eq_one_iff]
    refine exists_congr fun z => ?_
    rw [mul_left_inj' two_pi_I_ne_zero, div_eq_iff hL', mul_comm]
    norm_cast
  split_ifs with hdvd
  · simp [hone.2 hdvd]
  · rw [geom_sum_eq (mt hone.1 hdvd), ← exp_nat_mul, ← mul_assoc, mul_div_cancel₀ _ hL', exp_int_mul_two_pi_mul_I,
      sub_self, zero_div]

/-- The samples `c * sin (2π k0 m / L)` of a segment of length `L`. -/
noncomputable def sineSegment (c : ℝ) (k0 L : ℕ) : List ℝ :=
  (List.range L).map fun m : ℕ => c * Real.sin (2 * Real.pi * k0 * m / L)

@[simp] theorem sineSegment_length (c : ℝ) (k0 L : ℕ) : (sineSegment c k0 L).length = L := by
  simp [sineSegment]

open Complex in
/-- Euler: a sine turned back by `k` bins is the difference of two rotations, by `k0 - k` and by `-k0 - k` bins. -/
theorem sine_mul_exp (c : ℝ) (k0 k m L : ℕ) :
    ((c * Real.sin (2 * Real.pi * k0 * m / L) : ℝ) : ℂ) * exp (-2 * Real.pi * I * k * m / L) =
      c / (2 * I) * (exp (2 * Real.pi * I * (k0 - k : ℤ) * m / L) - exp (2 * Real.pi * I * (-k0 - k : ℤ) * m / L)) := by
  have hup : exp (2 * Real.pi * I * (k0 - k : ℤ) * m / L) =
      exp (2 * Real.pi * k0 * m / L * I) * exp (-2 * Real.pi * I * k * m / L) := by
    rw [← exp_add]
    congr 1
    push_cast
    ring
  have hdown : exp (2 * Real.pi * I * (-k0 - k : ℤ) * m / L) =
      exp (-(2 * Real.pi * k0 * m / L) * I) * exp (-2 * Real.pi * I * k * m / L) := by
    rw [← exp_add]
    congr 1
    push_cast
    ring
  rw [hup, hdown]
  push_cast
  rw [Complex.sin]
  field_simp
  rw [I_sq]
  ring

open Complex in
/-- The transform of a sine has weight in at most two bins, `k0` and its mirror image. -/
theorem dft_sineSegment {L : ℕ} (hL : 0 < L) (c : ℝ) (k0 k : ℕ) :
    dft (sineSegment c k0 L) k = c / (2 * I) *
      ((if (L : ℤ) ∣ k0 - k then (L : ℂ) else 0) - if (L : ℤ) ∣ -k0 - k then (L : ℂ) else 0) := by
  rw [← sum_exp_turns hL, ← sum_exp_turns hL, dft, sineSegment_length, ← Finset.sum_sub_distrib, Finset.mul_sum]
  refine Finset.sum_congr rfl fun m hm => ?_
  have hsample : (sineSegment c k0 L).getD m 0 = c * Real.sin (2 * Real.pi * k0 * m / L) := by
    rw [List.getD_eq_getElem _ _ (by simpa using hm)]
    simp only [sineSegment, List.getElem_map, List.getElem_range]
  rw [hsample]
  exact sine_mul_exp c k0 k m L

section Bins

variable {L k0 : ℕ} (hk0 : 0 < k0) (hhalf : 2 * k0 < L)
include hk0 hhalf

/-- Up to `k0`, bin `k0` alone carries weight: the mirror image lies above it. -/
theorem dvd_bin_sub {k : ℕ} (hk : k ≤ k0) : ((L : ℤ) ∣ k0 - k ↔ k = k0) ∧ ¬ (L : ℤ) ∣ -k0 - k := by
  refine ⟨⟨fun h => ?_, fun h => by simp [h]⟩, fun h => ?_⟩
  · have := Int.eq_zero_of_abs_lt_dvd h (by rw [abs_lt]; omega)
    omega
  · have := Int.eq_zero_of_abs_lt_dvd h (by rw [abs_lt]; omega)
    omega

/-- `k0` is not its own mirror image. -/
theorem not_dvd_bin_sub_and (k : ℕ) : ¬ ((L : ℤ) ∣ k0 - k ∧ (L : ℤ) ∣ -k0 - k) := fun ⟨h, h'⟩ => by
  have := Int.eq_zero_of_abs_lt_dvd (dvd_sub h h') (by rw [abs_lt]; omega)
  omega

theorem dft_sineSegment_below (c : ℝ) {k : ℕ} (hk : k < k0) : dft (sineSegment c k0 L) k = 0 := by
  obtain ⟨hself, hmirror⟩ := dvd_bin_sub hk0 hhalf hk.le
  rw [dft_sineSegment (by omega), if_neg (mt hself.1 hk.ne), if_neg hmirror, sub_self, mul_zero]

theorem norm_dft_sineSegment_self (c : ℝ) : ‖dft (sineSegment c k0 L) k0‖ = |c| / 2 * L := by
  obtain ⟨hself, hmirror⟩ := dvd_bin_sub hk0 hhalf le_rfl
  rw [dft_sineSegment (by omega), if_pos (hself.2 rfl), if_neg hmirror]
  simp

theorem norm_dft_sineSegment_le (c : ℝ) (k : ℕ) : ‖dft (sineSegment c k0 L) k‖ ≤ |c| / 2 * L := by
  rw [dft_sineSegment (by omega)]
  split_ifs with h h'
  · exact absurd ⟨h, h'⟩ (not_dvd_bin_sub_and hk0 hhalf k)
  · simp
  · simp
  · rw [sub_self, mul_zero, norm_zero]
    positivity

/-- The least bin of largest magnitude of a sine below half the rate is its own (42_shared_numerics.md R195, R198). -/
theorem idealPeakBin_sineSegment {c : ℝ} (hc : c ≠ 0) : idealPeakBin (sineSegment c k0 L) = k0 := by
  have hlargest : k0 < (sineSegment c k0 L).length ∧
      ∀ k < (sineSegment c k0 L).length, ‖dft (sineSegment c k0 L) k‖ ≤ ‖dft (sineSegment c k0 L) k0‖ := by
    refine ⟨by rw [sineSegment_length]; omega, fun k _ => ?_⟩
    rw [norm_dft_sineSegment_self hk0 hhalf]
    exact norm_dft_sineSegment_le hk0 hhalf c k
  refine le_antisymm (Nat.sInf_le hlargest) (le_csInf ⟨k0, hlargest⟩ ?_)
  rintro k ⟨-, hmax⟩
  by_contra hk
  have hpos : 0 < |c| / 2 * L := by
    have : 0 < L := by omega
    positivity
  have hle := hmax k0 hlargest.1
  rw [norm_dft_sineSegment_self hk0 hhalf, dft_sineSegment_below hk0 hhalf c (not_le.1 hk), norm_zero] at hle
  exact hpos.not_ge hle

theorem peakIndex_sineSegment {c : ℝ} (hc : c ≠ 0) : peakIndex numReal (sineSegment c k0 L) = k0 := by
  have hpeak : numReal.peakBin (sineSegment c k0 L) = k0 := idealPeakBin_sineSegment hk0 hhalf hc
  rw [peakIndex, hpeak, sineSegment_length, Nat.mod_eq_of_lt (by omega)]

end Bins

end Sys2Proof.Machine
end

section
/-! PROOFS, the waveform read back (41_decode.md R157 to R160, R168): the segments of a normalized waveform over any
numerics record, the classifier at tones that are multiples of 10 Hz, and the round trip under `NUM_REAL`. -/

namespace Sys2Proof.Machine

variable {S : Type}

/-! ### Segments and bits -/

/-- Segment `j` of a normalized waveform is the window of bit `j` (41_decode.md R157). -/
theorem waveSegment_normalizeWave (num : Num S) {bits : List Bool} {T p j : ℕ} (D f0 f1 : ℚ)
    (hT : bits.length * p ≤ T) {b : Bool} (hb : bits[j]? = some b) :
    waveSegment (normalizeWave num (waveform num bits T p D f0 f1)) p j = (List.range p).map fun m =>
      num.div (num.sin2pi (phase (tone f0 f1 b) D T (j * p + m))) (num.absmax (waveform num bits T p D f0 f1)) := by
  refine List.ext_getElem? fun m => ?_
  rw [waveSegment, List.getElem?_take, List.getElem?_drop, normalizeWave, List.getElem?_map, List.getElem?_map]
  split_ifs with hm
  · rw [waveform_window num D f0 f1 hT hb hm, List.getElem?_range hm]
    rfl
  · rw [List.getElem?_eq_none (by simpa using hm)]
    rfl

/-- A waveform is read back where each segment is classified as its bit (41_decode.md R160). -/
theorem decodeBits_eq {num : Num S} {xs : List S} {bits : List Bool} {p : ℕ} {sr f0 f1 : ℚ}
    (h : ∀ j b, bits[j]? = some b → classify f0 f1 (peakHz (peakIndex num (waveSegment xs p j)) p sr) = b) :
    decodeBits num xs bits.length p sr f0 f1 = bits := by
  refine List.ext_getElem (decodeBits_length ..) fun j _ hj => ?_
  simp only [decodeBits, List.getElem_map, List.getElem_range]
  exact h j _ (List.getElem?_eq_getElem hj)

/-! ### Tones that are multiples of 10 Hz at a rate that is one (41_decode.md R168) -/

/-- The bin of a bit's tone, in a segment of a tenth of a second. -/
def toneBin (k0 k1 : ℕ) (b : Bool) : ℕ := if b then k1 else k0

theorem tone_mul_ten (k0 k1 : ℕ) (b : Bool) : tone (10 * k0) (10 * k1) b = 10 * toneBin k0 k1 b := by
  cases b <;> rfl

/-- Up to whole turns the phase starts anew in each window. -/
theorem phase_window {B k : ℕ} (hB : B ≠ 0) (hk : k ≠ 0) (q j m : ℕ) :
    phase (10 * q) ((B : ℚ) / 10) (B * k) (j * k + m) = (q : ℚ) * m / k + (q * j : ℕ) := by
  have hk' : (k : ℚ) ≠ 0 := by exact_mod_cast hk
  rw [phase_mul_ten hB hk]
  push_cast
  field_simp
  ring

/-- A peak at a tone's bin, or at its mirror image, is at the tone's frequency (41_decode.md R159). -/
theorem peakHz_mul_ten {p q k : ℕ} (hk : k ≠ 0) (hq : min p (k - p) = q) : peakHz p k (10 * k) = 10 * q := by
  have hk' : (k : ℚ) ≠ 0 := by exact_mod_cast hk
  rw [peakHz, hq]
  field_simp

/-- A peak at the tone of a bit is classified as that bit (41_decode.md R160). -/
theorem classify_tone {f0 f1 : ℚ} (h : f0 ≠ f1) (b : Bool) : classify f0 f1 (tone f0 f1 b) = b := by
  have hpos : 0 < |f0 - f1| := abs_pos.2 (sub_ne_zero.2 h)
  cases b <;> simp [classify, tone, hpos]

/-! ### Under `NUM_REAL` -/

theorem abs_le_absmax {w : List ℝ} {x : ℝ} (hx : x ∈ w) : |x| ≤ numReal.absmax w := by
  induction w with
  | nil => cases hx
  | cons y w ih =>
    obtain rfl | hx := List.mem_cons.1 hx
    · exact le_max_left _ _
    · exact (ih hx).trans (le_max_right _ _)

theorem isZero_numReal {x : ℝ} : numReal.isZero x = false ↔ x ≠ 0 := decide_eq_false_iff_not

theorem sin2pi_add_nat (q : ℚ) (n : ℕ) : numReal.sin2pi (q + n) = Real.sin (2 * Real.pi * q) := by
  rw [← Real.sin_add_nat_mul_two_pi _ n]
  simp only [numReal]
  congr 1
  push_cast
  ring

section Reals

variable {bits : List Bool} {k k0 k1 : ℕ}

/-- The waveform of 40_encode.md R134, at the rate `10 k` with tones `10 k0` and `10 k1`. -/
noncomputable def realWave (bits : List Bool) (k k0 k1 : ℕ) : List ℝ :=
  waveform numReal bits (bits.length * k) k ((bits.length : ℚ) / 10) (10 * k0) (10 * k1)

/-- Sample `m` of the window of bit `j`: whole turns have gone by before it. -/
theorem sin2pi_window {B : ℕ} (hB : B ≠ 0) (hk : k ≠ 0) (b : Bool) (j m : ℕ) :
    numReal.sin2pi (phase (tone (10 * k0) (10 * k1) b) ((B : ℚ) / 10) (B * k) (j * k + m)) =
      Real.sin (2 * Real.pi * toneBin k0 k1 b * m / k) := by
  rw [tone_mul_ten, phase_window hB hk, sin2pi_add_nat]
  congr 1
  push_cast
  ring

theorem length_ne_zero_of_getElem? {j : ℕ} {b : Bool} (hb : bits[j]? = some b) : bits.length ≠ 0 := by
  obtain ⟨hj, -⟩ := List.getElem?_eq_some_iff.1 hb
  omega

/-- Each normalized segment is a sine of its tone's bin. -/
theorem waveSegment_realWave (hk : k ≠ 0) {j : ℕ} {b : Bool} (hb : bits[j]? = some b) :
    waveSegment (normalizeWave numReal (realWave bits k k0 k1)) k j =
      sineSegment (numReal.absmax (realWave bits k k0 k1))⁻¹ (toneBin k0 k1 b) k := by
  rw [realWave, waveSegment_normalizeWave numReal _ _ _ le_rfl hb, sineSegment]
  refine List.map_congr_left fun m _ => ?_
  rw [sin2pi_window (length_ne_zero_of_getElem? hb) hk]
  exact div_eq_inv_mul _ _

/-- Below half the rate, sample 1 of a sine lies within its first half turn. -/
theorem sin_bin_pos {q : ℕ} (hq : 0 < q) (hhalf : 2 * q < k) : 0 < Real.sin (2 * Real.pi * q * (1 : ℕ) / k) := by
  have hq' : (0 : ℝ) < q := by exact_mod_cast hq
  have hk : (0 : ℝ) < k := by exact_mod_cast (by omega : 0 < k)
  refine Real.sin_pos_of_pos_of_lt_pi (by positivity) ((div_lt_iff₀ hk).2 ?_)
  calc 2 * Real.pi * q * (1 : ℕ) = Real.pi * (2 * q : ℕ) := by push_cast; ring
    _ < Real.pi * k := mul_lt_mul_of_pos_left (by exact_mod_cast hhalf) Real.pi_pos

/-- A waveform with a window is not silent: its sample 1 is positive (40_encode.md R130). -/
theorem absmax_realWave_ne_zero (hbits : bits ≠ []) (hk : 1 < k) (hpos : ∀ b, 0 < toneBin k0 k1 b)
    (hhalf : ∀ b, 2 * toneBin k0 k1 b < k) : numReal.absmax (realWave bits k k0 k1) ≠ 0 := by
  obtain ⟨b, rest, rfl⟩ := List.exists_cons_of_ne_nil hbits
  have hsample := waveform_window numReal (((b :: rest).length : ℚ) / 10) (10 * k0) (10 * k1) le_rfl
    (show (b :: rest)[0]? = some b from rfl) hk
  rw [sin2pi_window (by simp) (by omega)] at hsample
  have hle := abs_le_absmax (List.mem_of_getElem? hsample)
  exact ((abs_pos.2 (sin_bin_pos (hpos b) (hhalf b)).ne').trans_le hle).ne'

end Reals

/-- Settles O60: each segment is a sine whose transform peaks at its tone's bin. -/
theorem realWaveformDecodesToItsMessage : Obligations.RealWaveformDecodesToItsMessage := by
  intro bytes k k0 k1 w hbytes hk hk0 hk1 hne hhalf0 hhalf1 hw
  have hbits : serialize bytes ≠ [] := fun h => hbytes (by simpa [h] using serialize_length bytes)
  have hpos : ∀ b, 0 < toneBin k0 k1 b := fun b => by cases b <;> assumption
  have hhalf : ∀ b, 2 * toneBin k0 k1 b < k := fun b => by cases b <;> assumption
  have hnonzero := absmax_realWave_ne_zero hbits (by omega) hpos hhalf
  rw [← serialize_length bytes] at hw ⊢
  change w = realWave (serialize bytes) k k0 k1 at hw
  subst hw
  refine ⟨degenerate_eq_false.2 ⟨by omega, isZero_numReal.2 hnonzero⟩, ?_⟩
  rw [decodeBits_eq fun j b hb => ?_]
  · simpa using deserializerInvertsSerializer bytes [] (by simp)
  · rw [waveSegment_realWave (by omega) hb, peakIndex_sineSegment (hpos b) (hhalf b) (inv_ne_zero hnonzero),
      peakHz_mul_ten (by omega) (min_eq_left (by have := hhalf b; omega)), ← tone_mul_ten, classify_tone]
    exact fun h => hne (by exact_mod_cast mul_left_cancel₀ (by norm_num : (10 : ℚ) ≠ 0) h)

end Sys2Proof.Machine
end

section
/-! PROOFS, the engine step of a decode (41_decode.md R150 to R163, R165, R166; 60_exceptions.md R243, R246): the order
of its checks, what it does past them, and which state it reads. -/

namespace Sys2Proof.Machine

variable {S : Type}

/-! ### The step, outcome by outcome -/

theorem decodeStep_of_check [Inhabited S] {cfg : Config S} {s : Block S} {e : ErrCode}
    (h : decodeCheck cfg s = some e) : decodeStep cfg s = raise e s := by
  rw [decodeStep, h]

theorem decodeStep_of_numbers [Inhabited S] {cfg : Config S} {s : Block S} (hcheck : decodeCheck cfg s = none)
    (hnum : allNumbers cfg.num (decodeSamples s) = true) :
    decodeStep cfg s = commitDecode (decodeBytes cfg s) (decodeCount s) (decodeSpb s)
      (s.drawn (decodeCount s * decodeSpb s)) := by
  rw [decodeStep, hcheck]
  exact if_pos hnum

theorem allNumbers_iff {num : Num S} {xs : List S} :
    allNumbers num xs = true ↔ ∀ x ∈ xs, (num.real x).isSome = true := List.all_eq_true

/-! ### The checks in their order (60_exceptions.md R243) -/

section Checks

variable {cfg : Config S} {s : Block S}

theorem decodeCheck_sampleRate (hrate : sint s.srate ≤ 0) : decodeCheck cfg s = some .sampleRate := if_pos hrate

theorem decodeCheck_rateTooLow (hpos : 0 < sint s.srate) (hlow : sint s.srate < 10) :
    decodeCheck cfg s = some .rateTooLow := by
  rw [decodeCheck, if_neg (not_le.2 hpos), if_pos hlow]

variable (hrate : 10 ≤ sint s.srate)
include hrate

/-- With a rate of at least 10, the tones, the samples and the result are left to check. -/
theorem decodeCheck_of_rate : decodeCheck cfg s =
    if sint s.f0 ≤ 0 then some .f0
    else if sint s.f1 ≤ 0 then some .f1
    else if cfg.sampMax < uint s.slen then some .capSamples
    else if sint s.wrate ≠ sint s.srate then some .rateMismatch
    else if cfg.msgMax < decodeCount s / 8 then some .capMessage
    else none := by
  rw [decodeCheck, if_neg (by omega), if_neg (not_lt.2 hrate)]

theorem decodeCheck_f0 (hf0 : sint s.f0 ≤ 0) : decodeCheck cfg s = some .f0 := by
  rw [decodeCheck_of_rate hrate, if_pos hf0]

variable (hf0 : 0 < sint s.f0)
include hf0

theorem decodeCheck_f1 (hf1 : sint s.f1 ≤ 0) : decodeCheck cfg s = some .f1 := by
  rw [decodeCheck_of_rate hrate, if_neg (not_le.2 hf0), if_pos hf1]

variable (hf1 : 0 < sint s.f1)
include hf1

theorem decodeCheck_capSamples (hN : cfg.sampMax < uint s.slen) : decodeCheck cfg s = some .capSamples := by
  rw [decodeCheck_of_rate hrate, if_neg (not_le.2 hf0), if_neg (not_le.2 hf1), if_pos hN]

variable (hN : uint s.slen ≤ cfg.sampMax)
include hN

theorem decodeCheck_rateMismatch (hwrate : sint s.wrate ≠ sint s.srate) :
    decodeCheck cfg s = some .rateMismatch := by
  rw [decodeCheck_of_rate hrate, if_neg (not_le.2 hf0), if_neg (not_le.2 hf1), if_neg (not_lt.2 hN), if_pos hwrate]

variable (hwrate : sint s.wrate = sint s.srate)
include hwrate

/-- Past every other check, the result has to fit the message cells (41_decode.md R162). -/
theorem decodeCheck_of_wrate :
    decodeCheck cfg s = if cfg.msgMax < decodeCount s / 8 then some .capMessage else none := by
  rw [decodeCheck_of_rate hrate, if_neg (not_le.2 hf0), if_neg (not_le.2 hf1), if_neg (not_lt.2 hN),
    if_neg (not_not.2 hwrate)]

theorem decodeCheck_capMessage (hmax : cfg.msgMax < decodeCount s / 8) : decodeCheck cfg s = some .capMessage := by
  rw [decodeCheck_of_wrate hrate hf0 hf1 hN hwrate, if_pos hmax]

theorem decodeCheck_eq_none (hmax : decodeCount s / 8 ≤ cfg.msgMax) : decodeCheck cfg s = none := by
  rw [decodeCheck_of_wrate hrate hf0 hf1 hN hwrate, if_neg (not_lt.2 hmax)]

end Checks

/-- Settles O31: each clause's conditions are those under which its check is the first to fail. -/
theorem decodeReportsFirstFailingCheck : Obligations.DecodeReportsFirstFailingCheck := by
  refine ⟨exec_eq .dec, fun S _ cfg s => ⟨fun hrate => ?_, fun hpos hlow => ?_, fun hrate => ⟨fun hf0 => ?_,
    fun hf0 hf1 => ?_, fun hf0 hf1 => ⟨fun hN => ?_, fun hN => ⟨fun hwrate => ?_, fun hwrate hmax => ?_⟩⟩⟩⟩⟩
  · exact decodeStep_of_check (decodeCheck_sampleRate hrate)
  · exact decodeStep_of_check (decodeCheck_rateTooLow hpos hlow)
  · exact decodeStep_of_check (decodeCheck_f0 hrate hf0)
  · exact decodeStep_of_check (decodeCheck_f1 hrate hf0 hf1)
  · exact decodeStep_of_check (decodeCheck_capSamples hrate hf0 hf1 hN)
  · exact decodeStep_of_check (decodeCheck_rateMismatch hrate hf0 hf1 hN hwrate)
  · exact decodeStep_of_check (decodeCheck_capMessage hrate hf0 hf1 hN hwrate hmax)

/-! ### Past the checks -/

/-- A segment that fits the samples has its full length (41_decode.md R157). -/
theorem waveSegment_length {xs : List S} {B p j : ℕ} (hxs : xs.length = B * p) (hj : j < B) :
    (waveSegment xs p j).length = p := by
  have hfit : j * p + p ≤ B * p := Nat.succ_mul j p ▸ Nat.mul_le_mul_right p hj
  rw [waveSegment, List.length_take, List.length_drop, hxs, min_eq_left (Nat.le_sub_of_add_le' hfit)]

@[simp] theorem sampleValues_length [Inhabited S] (s : Block S) (n : ℕ) : (sampleValues s n).length = n := by
  simp [sampleValues]

@[simp] theorem decodeSamples_length [Inhabited S] (s : Block S) :
    (decodeSamples s).length = decodeCount s * decodeSpb s := sampleValues_length s _

/-- The classified bits, where the samples are exactly the `B` segments: every segment has `p` bins. -/
theorem decodeBits_eq_map (num : Num S) {xs : List S} {B p : ℕ} (hxs : xs.length = B * p) (sr f0 f1 : ℚ) :
    decodeBits num xs B p sr f0 f1 =
      (List.range B).map fun j => classify f0 f1 (peakHz (num.peakBin (waveSegment xs p j) % p) p sr) :=
  List.map_congr_left fun j hj => by rw [peakIndex, waveSegment_length hxs (List.mem_range.1 hj)]

/-- A decode of numbers stores the bytes of the bits and the counts, and nothing else (41_decode.md R163). -/
theorem decodeStep_eq_of_numbers [Inhabited S] {cfg : Config S} {s : Block S} (hcheck : decodeCheck cfg s = none)
    (hnum : allNumbers cfg.num (decodeSamples s) = true) :
    decodeStep cfg s = { s with
      msg := Memory.writePrefix s.msg (decodeBytes cfg s)
      mlen := BitVec.ofNat 32 (decodeCount s / 8)
      nbits := BitVec.ofNat 32 (decodeCount s)
      spb := BitVec.ofNat 32 (decodeSpb s)
      status := successWord
      draws := s.draws + decodeCount s * decodeSpb s } := by
  rw [decodeStep_of_numbers hcheck hnum, commitDecode, decodeBytes_length]
  rfl

/-- Settles O45: the stored bytes are those of the bits `decodeBits` classifies. -/
theorem decClassifiesAndCommits : Obligations.DecClassifiesAndCommits := by
  refine ⟨exec_eq .dec, ?_⟩
  rintro S _ cfg s N d B spb xs bits rfl rfl rfl rfl rfl rfl hrate hf0 hf1 hN hwrate hmax
  have hcheck : decodeCheck cfg s = none := decodeCheck_eq_none hrate hf0 hf1 hN hwrate hmax
  obtain ⟨word, hword⟩ := decodeStep_completed cfg s
  rw [hword]
  refine ⟨busy_completedWord word, done_completedWord word, fun hnum => ?_⟩
  have hstep := decodeStep_eq_of_numbers hcheck (allNumbers_iff.2 hnum)
  rw [decodeBytes, deserialize, decodeBits_length, decodeBits_eq_map cfg.num (decodeSamples_length s)] at hstep
  exact hstep

/-- Settles O46: no whole bit, so no sample is read and no byte stored. -/
theorem shortDecodeGivesEmptyMessage : Obligations.ShortDecodeGivesEmptyMessage := by
  intro s hrate hf0 hf1 hN hwrate hshort
  have hcount : decodeCount s.toBlock = 0 := Nat.div_eq_of_lt hshort
  have hspb : decodeSpb s.toBlock = 0 := if_pos hcount
  have hcheck : decodeCheck Config.chip s.toBlock = none :=
    decodeCheck_eq_none hrate hf0 hf1 hN hwrate (by rw [hcount]; exact Nat.zero_le _)
  have hnone : decodeSamples s.toBlock = [] := List.eq_nil_of_length_eq_zero (by simp [hcount])
  have hbytes : decodeBytes Config.chip s.toBlock = [] := List.eq_nil_of_length_eq_zero (by simp [hcount])
  rw [exec_eq, execBlock, State.onBlock, decodeStep_eq_of_numbers hcheck (by rw [hnone]; rfl), hbytes, hcount, hspb,
    writePrefix_nil]
  rfl

/-- Settles O48: `B` segments of `N div B` samples fit, and another `N div B >= sr div 10` would not. -/
theorem wholeSegmentsAreTheBitCount : Obligations.WholeSegmentsAreTheBitCount := by
  intro S s _ hcount
  have hspb : decodeSpb s = uint s.slen / decodeCount s := if_neg (by omega)
  have hfit : decodeCount s * decodeSpb s ≤ uint s.slen := by rw [hspb]; exact Nat.mul_div_le _ _
  have hunit : 0 < decodeUnit s := Nat.pos_of_ne_zero fun h => by simp [decodeCount, h] at hcount
  have hle : decodeUnit s ≤ decodeSpb s := by
    rw [hspb, Nat.le_div_iff_mul_le hcount, Nat.mul_comm]
    exact Nat.div_mul_le_self _ _
  have hnext : uint s.slen < (decodeCount s + 1) * decodeSpb s :=
    calc uint s.slen < (decodeCount s + 1) * decodeUnit s := (Nat.div_lt_iff_lt_mul hunit).1 (Nat.lt_succ_self _)
      _ ≤ (decodeCount s + 1) * decodeSpb s := Nat.mul_le_mul_left _ hle
  refine ⟨Nat.div_eq_of_lt_le hfit hnext, ?_, hle⟩
  rw [Nat.succ_mul] at hnext
  exact Nat.sub_lt_left_of_lt_add hfit hnext

/-! ### Equal tones -/

/-- No peak is nearer to one of two equal tones (41_decode.md R160). -/
theorem classify_self (f peak : ℚ) : classify f f peak = true := if_neg (lt_irrefl _)

theorem decodeBits_self (num : Num S) (xs : List S) (B p : ℕ) (sr f : ℚ) :
    decodeBits num xs B p sr f f = List.replicate B true := by
  simp [decodeBits, classify_self]

theorem deserialize_replicate_true (B : ℕ) : deserialize (List.replicate B true) = List.replicate (B / 8) 0xFF#8 := by
  refine List.ext_getElem (by simp) fun c hc _ => ?_
  simp only [deserialize, List.getElem_map, List.getElem_range, List.getElem_replicate]
  refine byteOfBits_eq fun p hp => ?_
  have hlt : 8 * c + p < B := by simp at hc; omega
  have hones : ∀ p < 8, (0xFF#8).getLsbD (7 - p) = true := by decide
  rw [hones p hp, List.getD_replicate _ hlt]

/-- Settles O50: every bit is 1. -/
theorem equalTonesDecodeToOnes : Obligations.EqualTonesDecodeToOnes := by
  intro S _ cfg s htones
  rw [decodeBytes, htones, decodeBits_self, deserialize_replicate_true]

/-! ### What a decode reads (41_decode.md R165) -/

/-- The two blocks agree in what a decode reads: the parameter registers, `WRATE`, `SLEN`, and written numbers. -/
structure SameDecodeOperands (num : Num S) (s s' : Block S) : Prop where
  srate : s.srate = s'.srate
  wrate : s.wrate = s'.wrate
  f0 : s.f0 = s'.f0
  f1 : s.f1 = s'.f1
  slen : s.slen = s'.slen
  smp : ∀ n < decodeCount s * decodeSpb s, ∃ x, Memory.read s.smp n = some x ∧ Memory.read s'.smp n = some x ∧
    (num.real x).isSome = true

namespace SameDecodeOperands

variable {num : Num S} {s s' : Block S}

theorem decodeCount_eq (h : SameDecodeOperands num s s') : decodeCount s = decodeCount s' := by
  rw [decodeCount, decodeCount, decodeUnit, decodeUnit, h.slen, h.srate]

theorem decodeSpb_eq (h : SameDecodeOperands num s s') : decodeSpb s = decodeSpb s' := by
  rw [decodeSpb, decodeSpb, h.decodeCount_eq, h.slen]

theorem decodeCheck_eq {cfg : Config S} (h : SameDecodeOperands cfg.num s s') :
    decodeCheck cfg s = decodeCheck cfg s' := by
  simp only [decodeCheck, h.srate, h.wrate, h.f0, h.f1, h.slen, h.decodeCount_eq]

variable [Inhabited S]

/-- Where the samples are written no free value is read. -/
theorem decodeSamples_eq (h : SameDecodeOperands num s s') : decodeSamples s = decodeSamples s' := by
  rw [decodeSamples, decodeSamples, ← h.decodeCount_eq, ← h.decodeSpb_eq]
  refine List.map_congr_left fun n hn => ?_
  obtain ⟨x, hs, hs', -⟩ := h.smp n (List.mem_range.1 hn)
  rw [sampleValue, sampleValue, hs, hs', Option.getD_some, Option.getD_some]

theorem samplesAreNumbers (h : SameDecodeOperands num s s') : allNumbers num (decodeSamples s) = true := by
  refine allNumbers_iff.2 fun y hy => ?_
  obtain ⟨n, hn, rfl⟩ := List.mem_map.1 hy
  obtain ⟨x, hs, -, hx⟩ := h.smp n (List.mem_range.1 hn)
  rwa [sampleValue, hs, Option.getD_some]

theorem decodeBytes_eq {cfg : Config S} (h : SameDecodeOperands cfg.num s s') :
    decodeBytes cfg s = decodeBytes cfg s' := by
  rw [decodeBytes, decodeBytes, h.decodeSamples_eq, h.decodeCount_eq, h.decodeSpb_eq, h.srate, h.f0, h.f1]

/-- Both decodes have the same outcome, and on success store the same. -/
theorem decodeStep_eq {cfg : Config S} (h : SameDecodeOperands cfg.num s s') :
    (∃ e, decodeStep cfg s = raise e s ∧ decodeStep cfg s' = raise e s') ∨
      ∃ bytes B p k, decodeStep cfg s = commitDecode bytes B p (s.drawn k) ∧
        decodeStep cfg s' = commitDecode bytes B p (s'.drawn k) := by
  cases hcheck : decodeCheck cfg s with
  | some e => exact .inl ⟨e, decodeStep_of_check hcheck, decodeStep_of_check (h.decodeCheck_eq ▸ hcheck)⟩
  | none =>
    refine .inr ⟨_, _, _, _, decodeStep_of_numbers hcheck h.samplesAreNumbers, ?_⟩
    rw [h.decodeBytes_eq, h.decodeCount_eq, h.decodeSpb_eq]
    exact decodeStep_of_numbers (h.decodeCheck_eq ▸ hcheck) (h.decodeSamples_eq ▸ h.samplesAreNumbers)

end SameDecodeOperands

/-- Settles O52: the checks, the counts and the bytes are functions of the operands. -/
theorem decodeDependsOnlyOnItsOperands : Obligations.DecodeDependsOnlyOnItsOperands := by
  refine ⟨exec_eq .dec, ?_⟩
  rintro S _ cfg s s' t t' hsrate hwrate hf0 hf1 hslen hsmp rfl rfl
  have hsame : SameDecodeOperands cfg.num s s' := ⟨hsrate, hwrate, hf0, hf1, hslen, hsmp⟩
  obtain ⟨e, hs, hs'⟩ | ⟨bytes, B, p, k, hs, hs'⟩ := hsame.decodeStep_eq <;> rw [hs, hs']
  · exact ⟨rfl, fun h => absurd h (errorWord_ne_successWord e)⟩
  · refine ⟨rfl, fun _ => ⟨rfl, rfl, rfl, fun c hc => ?_⟩⟩
    have hlen : c < bytes.length := hc.trans_le (by simpa using Nat.mod_le bytes.length _)
    simp [read_writePrefix, hlen]

end Sys2Proof.Machine
end

section
/-! PROOFS, silent and constant segments under `NUM_REAL` (41_decode.md R167). -/

namespace Sys2Proof.Machine

/-- The transform of a constant has weight in bin 0 alone. -/
theorem dft_replicate {L k : ℕ} (hk : k < L) (c : ℝ) :
    dft (List.replicate L c) k = if k = 0 then (c : ℂ) * L else 0 := by
  have hdvd : (L : ℤ) ∣ (-k : ℤ) ↔ k = 0 := by
    rw [dvd_neg, Int.natCast_dvd_natCast]
    exact ⟨fun h => Nat.eq_zero_of_dvd_of_lt h hk, fun h => h ▸ dvd_zero L⟩
  calc dft (List.replicate L c) k
      = ∑ m ∈ Finset.range L, (c : ℂ) * Complex.exp (2 * Real.pi * Complex.I * (-k : ℤ) * m / L) := by
        rw [dft, List.length_replicate]
        refine Finset.sum_congr rfl fun m hm => ?_
        rw [List.getD_replicate _ (Finset.mem_range.1 hm)]
        congr 2
        push_cast
        ring
    _ = if k = 0 then (c : ℂ) * L else 0 := by
        rw [← Finset.mul_sum, sum_exp_turns (by omega)]
        simp only [hdvd, mul_ite, mul_zero]

/-- Bin 0 of a constant segment is a largest one, and no bin lies below it. -/
theorem idealPeakBin_replicate {L : ℕ} (hL : 0 < L) (c : ℝ) : idealPeakBin (List.replicate L c) = 0 := by
  refine Nat.le_zero.1 (Nat.sInf_le ⟨by simpa using hL, fun k hk => ?_⟩)
  rw [List.length_replicate] at hk
  rw [dft_replicate hk]
  split_ifs with h
  · rw [dft_replicate hL, if_pos rfl]
  · rw [norm_zero]
    exact norm_nonneg _

theorem waveSegment_replicate {S : Type} {B j : ℕ} (hj : j < B) (L : ℕ) (c : S) :
    waveSegment (List.replicate (B * L) c) L j = List.replicate L c :=
  List.eq_replicate_iff.2 ⟨waveSegment_length List.length_replicate hj, fun _ hx =>
    List.eq_of_mem_replicate (List.mem_of_mem_drop (List.mem_of_mem_take hx))⟩

theorem peakHz_zero (L : ℕ) (sr : ℚ) : peakHz 0 L sr = 0 := by simp [peakHz]

/-- A peak at 0 Hz is nearest to the lower tone, a tie giving 1 (41_decode.md R160). -/
theorem classify_zero {f0 f1 : ℚ} (hf0 : 0 < f0) (hf1 : 0 < f1) : classify f0 f1 0 = decide (f1 ≤ f0) := by
  simp only [classify, zero_sub, abs_neg, abs_of_pos hf0, abs_of_pos hf1]
  split_ifs with h
  · exact (decide_eq_false (not_le.2 h)).symm
  · exact (decide_eq_true (not_lt.1 h)).symm

/-- Settles O51: every segment is the constant one, whose peak is at 0 Hz. -/
theorem constantSegmentsClassifyByToneOrder : Obligations.ConstantSegmentsClassifyByToneOrder := by
  intro c B L sr f0 f1 hL hf0 hf1
  have hpeak : numReal.peakBin (List.replicate L c) = 0 := idealPeakBin_replicate hL c
  refine ⟨fun k hk => ?_, fun k hk hc => ?_, hpeak, ?_⟩
  · rw [dft_replicate hk]
    simp
  · have hL' : (L : ℂ) ≠ 0 := by exact_mod_cast hL.ne'
    rw [dft_replicate hk, norm_ne_zero_iff, ite_ne_right_iff]
    exact and_iff_left (mul_ne_zero (by exact_mod_cast hc) hL')
  · rw [decodeBits_eq_map numReal List.length_replicate, List.eq_replicate_iff]
    refine ⟨by simp, fun b hb => ?_⟩
    obtain ⟨j, hj, rfl⟩ := List.mem_map.1 hb
    rw [waveSegment_replicate (List.mem_range.1 hj), hpeak, Nat.zero_mod, peakHz_zero, classify_zero hf0 hf1]

end Sys2Proof.Machine
end

section
/-! PROOFS, the round trip under `P-NORM` and `P-PEAK` (41_decode.md R168; 42_shared_numerics.md R197, R198): what a
decode reads after an `ENCD`, and how each segment is classified, over any numerics record. -/

namespace Sys2Proof.Machine

variable {S : Type}

/-! ### The stages over a record with `P-NORM` and `P-PEAK` -/

/-- Every normalized sample is a number (42_shared_numerics.md R197). -/
theorem real_isSome_of_mem_normalizeWave {num : Num S} (hnorm : PNorm num) {w : List S}
    (hnonzero : num.isZero (num.absmax w) = false) : ∀ y ∈ normalizeWave num w, (num.real y).isSome = true := by
  intro y hy
  obtain ⟨x, hx, rfl⟩ := List.mem_map.1 hy
  obtain ⟨hrange, -, -⟩ := hnorm w hnonzero
  obtain ⟨r, hr, -⟩ := hrange x hx
  exact Option.isSome_of_eq_some hr

/-- The peak of a sine of bin `q`, divided by a positive real, is at `q` or at its mirror image, and so at the
frequency of bin `q` (42_shared_numerics.md R198). -/
theorem min_peakIndex_sine {num : Num S} (hpeak : PPeak num) {k q : ℕ} (hk : 3 ≤ k) (hq : 0 < q) (hhalf : 2 * q < k)
    {M : S} {r : ℝ} (hr : 0 < r) (hM : num.real M = some r) {theta : ℕ → ℚ} {seg : List S}
    (htheta : ∀ m < k, ∃ z : ℤ, theta m = (q : ℚ) * m / k + z)
    (hseg : seg = (List.range k).map fun m => num.div (num.sin2pi (theta m)) M)
    (hnum : ∀ x ∈ seg, (num.real x).isSome = true) :
    min (peakIndex num seg) (k - peakIndex num seg) = q := by
  have hlen : seg.length = k := by simp [hseg]
  have hbin : num.peakBin seg = q ∨ num.peakBin seg = k - q :=
    hpeak k q (1 / r) M theta seg hk hq hhalf (by positivity) (by rw [one_div_one_div, hM]) htheta hseg hnum
  have hindex : peakIndex num seg = num.peakBin seg := by
    rw [peakIndex, hlen, Nat.mod_eq_of_lt]
    omega
  omega

/-- The waveform of 40_encode.md R134, at the rate `10 k` with tones `10 k0` and `10 k1`, over any record. -/
def toneWave (num : Num S) (bits : List Bool) (k k0 k1 : ℕ) : List S :=
  waveform num bits (bits.length * k) k ((bits.length : ℚ) / 10) (10 * k0) (10 * k1)

/-- The normalized waveform is read back bit by bit: each segment peaks at its tone (41_decode.md R157 to R160). -/
theorem decodeBits_toneWave {num : Num S} (hnorm : PNorm num) (hpeak : PPeak num) {bits : List Bool} {k k0 k1 : ℕ}
    (hk : 3 ≤ k) (hne : k0 ≠ k1) (hpos : ∀ b, 0 < toneBin k0 k1 b) (hhalf : ∀ b, 2 * toneBin k0 k1 b < k)
    (hnonzero : num.isZero (num.absmax (toneWave num bits k k0 k1)) = false) {r : ℝ} (hr : 0 < r)
    (hM : num.real (num.absmax (toneWave num bits k k0 k1)) = some r) :
    decodeBits num (normalizeWave num (toneWave num bits k k0 k1)) bits.length k (10 * k) (10 * k0) (10 * k1) =
      bits := by
  refine decodeBits_eq fun j b hb => ?_
  have hbits := length_ne_zero_of_getElem? hb
  have hseg := waveSegment_normalizeWave num ((bits.length : ℚ) / 10) (10 * k0) (10 * k1) le_rfl hb (p := k)
  have hmin := min_peakIndex_sine hpeak hk (hpos b) (hhalf b) hr hM
    (fun m _ => ⟨(toneBin k0 k1 b * j : ℕ), by rw [tone_mul_ten, phase_window hbits (by omega)]; rfl⟩) hseg
    fun x hx => real_isSome_of_mem_normalizeWave hnorm hnonzero x (List.mem_of_mem_drop (List.mem_of_mem_take hx))
  rw [toneWave, peakHz_mul_ten (by omega) hmin, ← tone_mul_ten, classify_tone]
  exact fun h => hne (by exact_mod_cast mul_left_cancel₀ (by norm_num : (10 : ℚ) ≠ 0) h)

/-! ### What a decode reads after an encode -/

/-- Cells that hold `xs` are read as `xs`. -/
theorem sampleValues_writePrefix [Inhabited S] {s : Block S} {m : Memory S} {xs : List S}
    (h : s.smp = Memory.writePrefix m xs) : sampleValues s xs.length = xs := by
  refine List.ext_getElem (sampleValues_length s _) fun n _ hn => ?_
  simp [sampleValues, sampleValue, h, read_writePrefix, hn]

/-- The counts of a decode of `B` segments of a tenth of a second (41_decode.md R155, R156). -/
theorem decode_counts_mul_ten {s : Block S} {B k : ℕ} (hB : B ≠ 0) (hk : k ≠ 0) (hrate : sint s.srate = 10 * (k : ℤ))
    (hslen : uint s.slen = B * k) : decodeCount s = B ∧ decodeSpb s = k := by
  have hunit : decodeUnit s = k := by rw [decodeUnit, hrate]; omega
  have hcount : decodeCount s = B := by rw [decodeCount, hunit, hslen, Nat.mul_div_cancel _ (Nat.pos_of_ne_zero hk)]
  exact ⟨hcount, by rw [decodeSpb, hcount, if_neg hB, hslen, Nat.mul_div_cancel_left _ (Nat.pos_of_ne_zero hB)]⟩

theorem toneHz_mul_ten {v : Word} {q : ℕ} (h : sint v = 10000 * (q : ℤ)) : toneHz v = 10 * q := by
  rw [toneHz, h]
  push_cast
  ring

/-- The message cell of a written message, as an encode reads it. -/
theorem read_msg_eq {s : Block S} {c : ℕ} (h : Memory.read s.msg c ≠ none) :
    Memory.read s.msg c = some (messageByte s c) := by
  obtain ⟨b, hb⟩ := Option.ne_none_iff_exists'.1 h
  rw [messageByte, hb, Option.getD_some]

section Operands

variable {s : Block S} {k k0 k1 : ℕ} (hlen : s.mlen ≠ 0#32) (hk : 0 < k) (hrate : sint s.srate = 10 * (k : ℤ))
include hlen hk hrate

/-- The waveform of an `ENCD` at a multiple of 10 (40_encode.md R134). -/
theorem encodeWave_mul_ten (cfg : Config S) (hf0 : sint s.f0 = 10000 * (k0 : ℤ)) (hf1 : sint s.f1 = 10000 * (k1 : ℤ)) :
    encodeWave cfg .derived s = toneWave cfg.num (serialize (messageBytes s (uint s.mlen))) k k0 k1 := by
  obtain ⟨htotal, hspb, -⟩ := encdClosedFormAtMultiplesOfTen S s k hlen hk hrate
  rw [encodeWave, toneWave, htotal, hspb, toneHz_mul_ten hf0, toneHz_mul_ten hf1, serialize_length,
    messageBytes_length]
  rfl

/-- After a successful `ENCD` a decode with the same registers passes its checks and reads the normalized waveform,
cut into the encode's segments. -/
theorem decode_after_encd [Inhabited S] {cfg : Config S} (hf0 : 0 < sint s.f0) (hf1 : 0 < sint s.f1)
    (hstatus : (encodeStep cfg .derived s).status = successWord) :
    decodeCheck cfg (encodeStep cfg .derived s) = none ∧
      decodeCount (encodeStep cfg .derived s) = 8 * uint s.mlen ∧ decodeSpb (encodeStep cfg .derived s) = k ∧
      decodeSamples (encodeStep cfg .derived s) = normalizeWave cfg.num (encodeWave cfg .derived s) := by
  obtain ⟨htotal, -, -⟩ := encdClosedFormAtMultiplesOfTen S s k hlen hk hrate
  obtain ⟨hcheck, -, hcommit⟩ := encodeStep_success hstatus
  obtain ⟨-, -, -, -, -, hmlen, hmax⟩ := encodeCheck_none cfg .derived s hcheck
  obtain ⟨hsrate', hf0', hf1', -⟩ := encodeStep_frame cfg .derived s
  obtain ⟨hslen', -, -⟩ := encodeStep_counts hstatus
  have hwrate' : (encodeStep cfg .derived s).wrate = s.srate := by rw [hcommit]; rfl
  have hsmp : (encodeStep cfg .derived s).smp =
      Memory.writePrefix s.smp (normalizeWave cfg.num (encodeWave cfg .derived s)) := by rw [hcommit]; rfl
  obtain ⟨hcount, hspb⟩ := decode_counts_mul_ten (s := encodeStep cfg .derived s) (B := 8 * uint s.mlen)
    (Nat.mul_ne_zero (by decide) (uint_ne_zero hlen)) hk.ne' (by rw [hsrate', hrate]) (hslen'.trans htotal)
  refine ⟨decodeCheck_eq_none (by rw [hsrate', hrate]; omega) (by rwa [hf0']) (by rwa [hf1']) ?_
    (by rw [hwrate', hsrate']) ?_, hcount, hspb, ?_⟩
  · rwa [uint, hslen']
  · rwa [hcount, Nat.mul_div_cancel_left _ (by decide)]
  · have hread := sampleValues_writePrefix hsmp
    rw [normalizeWave_length, encodeWave_length, htotal] at hread
    rw [decodeSamples, hcount, hspb]
    exact hread

end Operands

section Numerics

variable [Inhabited S] {cfg : Config S} (hnorm : PNorm cfg.num) {s : Block S} {k k0 k1 : ℕ} (hlen : s.mlen ≠ 0#32)
  (hk : 3 ≤ k) (hrate : sint s.srate = 10 * (k : ℤ)) (hf0 : sint s.f0 = 10000 * (k0 : ℤ))
  (hf1 : sint s.f1 = 10000 * (k1 : ℤ)) (hk0 : 0 < k0) (hk1 : 0 < k1)
  (hstatus : (encodeStep cfg .derived s).status = successWord)
include hnorm hlen hk hrate hf0 hf1 hk0 hk1 hstatus

/-- A decode after a successful `ENCD` commits: what it reads are numbers (42_shared_numerics.md R197). -/
theorem decodeStep_after_encd : decodeStep cfg (encodeStep cfg .derived s) =
    commitDecode (decodeBytes cfg (encodeStep cfg .derived s)) (8 * uint s.mlen) k
      ((encodeStep cfg .derived s).drawn (8 * uint s.mlen * k)) := by
  obtain ⟨hcheck, hcount, hspb, hsamples⟩ := decode_after_encd hlen (by omega) hrate (by omega) (by omega) hstatus
  obtain ⟨-, hdegenerate, -⟩ := encodeStep_success hstatus
  obtain ⟨-, hnonzero⟩ := degenerate_eq_false.1 hdegenerate
  rw [decodeStep_of_numbers hcheck, hcount, hspb]
  rw [hsamples, allNumbers_iff]
  exact real_isSome_of_mem_normalizeWave hnorm hnonzero

/-- The bytes a decode after a successful `ENCD` stores are the message's (41_decode.md R168). -/
theorem decodeBytes_after_encd (hpeak : PPeak cfg.num) (hne : k0 ≠ k1) (hhalf0 : 2 * k0 < k) (hhalf1 : 2 * k1 < k)
    {r : ℝ} (hr : 0 < r) (hM : cfg.num.real (cfg.num.absmax (encodeWave cfg .derived s)) = some r) :
    decodeBytes cfg (encodeStep cfg .derived s) = messageBytes s (uint s.mlen) := by
  obtain ⟨-, hcount, hspb, hsamples⟩ := decode_after_encd hlen (by omega) hrate (by omega) (by omega) hstatus
  obtain ⟨-, hdegenerate, -⟩ := encodeStep_success hstatus
  obtain ⟨-, hnonzero⟩ := degenerate_eq_false.1 hdegenerate
  obtain ⟨hsrate', hf0', hf1', -⟩ := encodeStep_frame cfg .derived s
  have hsr : (sint s.srate : ℚ) = 10 * k := by exact_mod_cast hrate
  rw [encodeWave_mul_ten hlen (by omega) hrate cfg hf0 hf1] at hM hnonzero hsamples
  have hbits := decodeBits_toneWave hnorm hpeak hk hne (fun b => by cases b <;> assumption)
    (fun b => by cases b <;> assumption) hnonzero hr hM
  rw [serialize_length, messageBytes_length] at hbits
  rw [decodeBytes, hsamples, hcount, hspb, hsrate', hf0', hf1', toneHz_mul_ten hf0, toneHz_mul_ten hf1, hsr, hbits]
  simpa using deserializerInvertsSerializer (messageBytes s (uint s.mlen)) [] (by simp)

end Numerics

/-- Settles O59: `DEC` reads the normalized waveform, each segment of which peaks at its bit's tone. -/
theorem decodeRecoversEncodedMessage : Obligations.DecodeRecoversEncodedMessage := by
  rintro S _ cfg s t u k k0 k1 hnorm hpeak hrate hk hf0 hf1 hk0 hk1 hne hhalf0 hhalf1 hlen - - hmsg ⟨r, hr, hM⟩ rfl
    hstatus rfl
  rw [decodeStep_after_encd hnorm hlen hk hrate hf0 hf1 hk0 hk1 hstatus,
    decodeBytes_after_encd hnorm hlen hk hrate hf0 hf1 hk0 hk1 hstatus hpeak hne hhalf0 hhalf1 hr hM]
  refine ⟨rfl, ?_, fun c (hc : c < uint s.mlen) => ?_⟩
  · rw [commitDecode_mlen, messageBytes_length]
    exact BitVec.eq_of_toNat_eq (Nat.mod_eq_of_lt s.mlen.isLt)
  · have hstored : (messageBytes s (uint s.mlen))[c]? = some (messageByte s c) := by
      simp [messageBytes, List.getElem?_range hc]
    rw [commitDecode_msg, read_writePrefix, messageBytes_length, if_pos hc, hstored, read_msg_eq (hmsg c hc)]

end Sys2Proof.Machine
end

section
/-! PROOFS, the shared numerics: rounding (42_shared_numerics.md R184), and the named properties of `NUM_REAL` (R191,
R195, R197, R198, R200, R201). -/

namespace Sys2Proof.Machine

/-! ### Rounding -/

/-- `n` is nearest to `q`, and the even one where two integers are (42_shared_numerics.md R184). -/
def NearestTiesToEven (q : ℚ) (n : ℕ) : Prop := |(n : ℚ) - q| < 1 / 2 ∨ |(n : ℚ) - q| = 1 / 2 ∧ Even n

theorem NearestTiesToEven.abs_sub_le {q : ℚ} {n : ℕ} (h : NearestTiesToEven q n) : |(n : ℚ) - q| ≤ 1 / 2 :=
  h.elim le_of_lt fun ⟨htie, _⟩ => htie.le

/-- Of two different ones the lower lies 1/2 below `q` and the upper 1/2 above, both even: but they are neighbours. -/
theorem NearestTiesToEven.not_lt {q : ℚ} {m n : ℕ} (hm : NearestTiesToEven q m) (hn : NearestTiesToEven q n) :
    ¬ m < n := by
  intro hlt
  have hstep : (m : ℚ) + 1 ≤ n := by exact_mod_cast hlt
  obtain ⟨hmlow, -⟩ := abs_le.1 hm.abs_sub_le
  obtain ⟨-, hnup⟩ := abs_le.1 hn.abs_sub_le
  have hnext : n = m + 1 := by
    have : (n : ℚ) = m + 1 := by linarith
    exact_mod_cast this
  obtain hm | ⟨-, hmeven⟩ := hm
  · linarith [(abs_lt.1 hm).1]
  obtain hn | ⟨-, hneven⟩ := hn
  · linarith [(abs_lt.1 hn).2]
  · rw [hnext, Nat.even_add_one] at hneven
    exact hneven hmeven

theorem NearestTiesToEven.unique {q : ℚ} {m n : ℕ} (hm : NearestTiesToEven q m) (hn : NearestTiesToEven q n) :
    m = n :=
  le_antisymm (Nat.le_of_not_lt (hn.not_lt hm)) (Nat.le_of_not_lt (hm.not_lt hn))

/-- `rhe` by the distance to the integer below. -/
theorem nearestTiesToEven_rhe {q : ℚ} (hq : 0 ≤ q) : NearestTiesToEven q (rhe q) := by
  obtain ⟨f, hf⟩ := Int.eq_ofNat_of_zero_le (Int.floor_nonneg.2 hq)
  have hlow : (f : ℚ) ≤ q := by simpa [hf] using Int.floor_le q
  have hhigh : q < f + 1 := by simpa [hf] using Int.lt_floor_add_one q
  have habove : |((f + 1 : ℕ) : ℚ) - q| = f + 1 - q := by
    push_cast
    exact abs_of_pos (by linarith)
  have hbelow : |(f : ℚ) - q| = q - f := by rw [abs_sub_comm, abs_of_nonneg (by linarith)]
  simp only [rhe, hf, Int.cast_natCast]
  split_ifs with hup htie
  · exact .inl (show |((f + 1 : ℕ) : ℚ) - q| < 1 / 2 by linarith)
  · obtain ⟨hhalf, hodd⟩ := htie
    have heven : Even (f + 1) := Nat.even_iff.2 (by omega)
    exact .inr ⟨show |((f + 1 : ℕ) : ℚ) - q| = 1 / 2 by linarith, heven⟩
  · change NearestTiesToEven q f
    obtain hlt | heq := (not_lt.1 hup).lt_or_eq
    · exact .inl (by linarith)
    · have heven := not_and.1 htie heq
      exact .inr ⟨by linarith, Nat.even_iff.2 (by omega)⟩

/-- Settles O39: `rhe q` is a nearest integer with ties to even, and there is one such integer only. -/
theorem rheIsNearestTiesToEven : Obligations.RheIsNearestTiesToEven := by
  intro q n hq
  have hrhe := nearestTiesToEven_rhe hq
  exact ⟨fun h => h ▸ hrhe, fun hn => hrhe.unique hn⟩

/-! ### The sine of `NUM_REAL` -/

/-- The zeros of the sine are the half turns (42_shared_numerics.md R191). -/
theorem sin2pi_eq_zero_iff {q : ℚ} : numReal.sin2pi q = 0 ↔ ∃ z : ℤ, 2 * q = z := by
  refine Real.sin_eq_zero_iff.trans (exists_congr fun z => ?_)
  rw [mul_right_comm, mul_left_inj' Real.pi_ne_zero, eq_comm]
  exact_mod_cast Iff.rfl

/-- Settles O56: the zeros of `sin (2π q)`. -/
theorem numRealHasPZero : Obligations.NumRealHasPZero := fun _ =>
  ⟨sin2pi_eq_zero_iff.2, fun hq => isZero_numReal.2 (mt sin2pi_eq_zero_iff.1 hq)⟩

theorem sin2pi_add_int (q : ℚ) (z : ℤ) : numReal.sin2pi (q + z) = numReal.sin2pi q := by
  simp only [numReal]
  rw [← Real.sin_add_int_mul_two_pi (2 * Real.pi * q) z]
  congr 1
  push_cast
  ring

/-! ### The largest absolute value under `NUM_REAL` -/

theorem absmax_nonneg (w : List ℝ) : 0 ≤ numReal.absmax w := by
  cases w with
  | nil => exact le_rfl
  | cons x w => exact (abs_nonneg x).trans (le_max_left _ _)

theorem absmax_pos {w : List ℝ} (h : numReal.isZero (numReal.absmax w) = false) : 0 < numReal.absmax w :=
  (absmax_nonneg w).lt_of_ne (isZero_numReal.1 h).symm

/-- A largest absolute value that is not 0 is that of a member. -/
theorem exists_abs_eq_absmax {w : List ℝ} (h : 0 < numReal.absmax w) : ∃ x ∈ w, |x| = numReal.absmax w := by
  induction w with
  | nil => exact absurd h (lt_irrefl _)
  | cons y w ih =>
    have hcons : numReal.absmax (y :: w) = max |y| (numReal.absmax w) := rfl
    rw [hcons] at h ⊢
    obtain hle | hlt := le_or_gt (numReal.absmax w) |y|
    · exact ⟨y, List.mem_cons_self, (max_eq_left hle).symm⟩
    · rw [max_eq_right hlt.le] at h ⊢
      obtain ⟨x, hx, hmax⟩ := ih h
      exact ⟨x, List.mem_cons_of_mem y hx, hmax⟩

theorem sign_div_of_pos {M : ℝ} (hM : 0 < M) (x : ℝ) : SignType.sign (x / M) = SignType.sign x := by
  rw [div_eq_mul_inv, sign_mul, sign_pos (inv_pos.2 hM), mul_one]

theorem pNorm_numReal : PNorm numReal := by
  intro w hnonzero
  have hM := absmax_pos hnonzero
  refine ⟨fun x hx => ?_, ?_, congrArg some (zero_div _)⟩
  · have hle : |x / numReal.absmax w| ≤ 1 := by
      rw [abs_div, abs_of_pos hM, div_le_one hM]
      exact abs_le_absmax hx
    obtain ⟨hlow, hhigh⟩ := abs_le.1 hle
    exact ⟨x / numReal.absmax w, rfl, hlow, hhigh, fun a ha => Option.some_injective _ ha ▸ sign_div_of_pos hM x⟩
  · obtain ⟨x, hx, hmax⟩ := exists_abs_eq_absmax hM
    have hone : |x / numReal.absmax w| = 1 := by rw [abs_div, abs_of_pos hM, hmax, div_self hM.ne']
    exact ⟨x, hx, (eq_or_eq_neg_of_abs_eq hone).imp (congrArg some) (congrArg some)⟩

/-- Settles O57: the divisor is positive, and is the absolute value of a member. -/
theorem numRealHasPNorm : Obligations.NumRealHasPNorm :=
  ⟨pNorm_numReal, fun _ x _ hnonzero hr => Option.some_injective _ hr ▸ sign_div_of_pos (absmax_pos hnonzero) x⟩

/-! ### The peak under `NUM_REAL` -/

/-- Sines as computed by `sin2pi` and `div`, whole turns aside, are the samples of the sine of bin `k0`. -/
theorem map_div_sin2pi_eq_sineSegment {L k0 : ℕ} {c : ℝ} {theta : ℕ → ℚ}
    (htheta : ∀ m < L, ∃ z : ℤ, theta m = (k0 : ℚ) * m / L + z) :
    (List.range L).map (fun m => numReal.div (numReal.sin2pi (theta m)) (1 / c)) = sineSegment c k0 L := by
  refine List.map_congr_left fun m hm => ?_
  obtain ⟨z, hz⟩ := htheta m (List.mem_range.1 hm)
  have hangle : 2 * Real.pi * ((k0 : ℚ) * m / L : ℚ) = 2 * Real.pi * k0 * m / L := by
    push_cast
    ring
  calc numReal.div (numReal.sin2pi (theta m)) (1 / c)
      = Real.sin (2 * Real.pi * ((k0 : ℚ) * m / L : ℚ)) / (1 / c) := by rw [hz, sin2pi_add_int]; rfl
    _ = c * Real.sin (2 * Real.pi * k0 * m / L) := by rw [hangle, div_div_eq_mul_div, div_one, mul_comm]

theorem pPeak_numReal : PPeak numReal := by
  rintro L k0 c M theta xs - hk0 hhalf hc hM htheta rfl -
  obtain rfl : M = 1 / c := Option.some_injective _ hM
  rw [map_div_sin2pi_eq_sineSegment htheta]
  exact .inl (idealPeakBin_sineSegment hk0 hhalf hc.ne')

/-- The segment as O58 writes it: there `List.range L` is coerced to a list of reals. -/
theorem map_cast_range_eq_sineSegment (c : ℝ) (k0 L : ℕ) :
    ((List.range L).map fun m => c * Real.sin (2 * Real.pi * k0 * m / L)) = sineSegment c k0 L := by
  simp [sineSegment, ← List.map_eq_flatMap]

/-- Settles O58: the segment is the sine of bin `k0`, whose transform peaks there. -/
theorem numRealHasPPeak : Obligations.NumRealHasPPeak := by
  refine ⟨pPeak_numReal, fun L k0 c _ hk0 hhalf hc => ?_⟩
  rw [map_cast_range_eq_sineSegment]
  exact idealPeakBin_sineSegment hk0 hhalf hc.ne'

end Sys2Proof.Machine
end

section
/-! PROOFS, the host and the engine (43_host_control.md R210 to R218, R222): reads, writes while idle and while a
command is pending, and turns, each read off the one operation of the block an instruction performs. -/

namespace Sys2Proof.Machine

variable {S : Type}

/-- An instruction answers the block its operation gives. -/
theorem exec_eq_of_execBlock {i : Instr} {s : State} {b : Block Sample} (h : execBlock i s.toBlock = b) :
    exec i s = .next { s with toBlock := b } := by
  rw [exec_eq, State.onBlock, h]

/-! ### Reads -/

/-- A read inside its space answers what `readCell` gives, busy or idle (20_memory.md R64). -/
theorem exec_read_inside {sp : Space} {i : ℕ} (hi : i ≤ topIndex Config.chip sp) {s : State} {b : Block Sample}
    (h : readCell sp i s.toBlock = b) : exec (readOf sp i) s = .next { s with toBlock := b } := by
  rw [exec_readOf, State.onBlock, memRead_inside Config.chip sp i s.toBlock hi, h]

/-- A legal `STATUS` has no bit where the read is hardwired to 0 (10_state.md R23, R34). -/
theorem statusRead_of_legalStatus {w : Word} (h : legalStatus w) : statusRead w = w := by
  obtain rfl | rfl | ⟨k, rfl⟩ := h
  · rfl
  · rfl
  · revert k
    decide

/-- A register read while idle (43_host_control.md R210). -/
theorem exec_rdReg_idle {s : State} (hidle : s.busy = false) {r : ℕ} (hr : r ≤ 10) :
    exec (.rdReg r) s = .next { s with port := .word (s.toBlock.readReg r) } := by
  have hread : readCell .reg r s.toBlock = s.toBlock.respond (.word (s.toBlock.readReg r)) :=
    if_neg (by simp [hidle])
  exact exec_read_inside (sp := .reg) hr hread

/-- A register read while a command is pending (43_host_control.md R212). -/
theorem exec_rdReg_busy {s : State} (hbusy : s.busy = true) {r : ℕ} (hr : r ≤ 10) :
    exec (.rdReg r) s = .next { s with toBlock := readRegBusy s.toBlock r } :=
  exec_read_inside (sp := .reg) hr (if_pos hbusy)

/-- The registers a pending command may write read as free values (93_implementation_defined.md U2). -/
theorem readRegBusy_free (b : Block S) {r : ℕ} (hr : r = 3 ∨ r = 7 ∨ r = 8 ∨ r = 9 ∨ r = 10) :
    readRegBusy b r = (b.respond (.word (Config.freeWord b.draws))).drawn 1 := by
  obtain rfl | rfl | rfl | rfl | rfl := hr <;> rfl

/-- A written message cell read while idle (43_host_control.md R211). -/
theorem exec_rdMsg_written {s : State} (hidle : s.busy = false) {i : ℕ} (hi : i < Config.chip.msgMax) {v : Byte}
    (hv : Memory.read s.msg i = some v) : exec (.rdMsg i) s = .next { s with port := .byte v } := by
  have hread : readCell .msg i s.toBlock = s.toBlock.respond (.byte v) := by simp [readCell, hidle, hv]
  exact exec_read_inside (sp := .msg) (Nat.le_of_lt_succ hi) hread

/-- A message cell that nothing has written, or that a pending command may write, reads as a free value
(93_implementation_defined.md U1, U2). -/
theorem exec_rdMsg_free {s : State} {i : ℕ} (hi : i < Config.chip.msgMax)
    (hfree : s.busy = true ∨ Memory.read s.msg i = none) : exec (.rdMsg i) s =
      .next { s with port := .byte (Config.freeByte s.draws), draws := s.draws + 1 } := by
  have hread : readCell .msg i s.toBlock = (s.toBlock.respond (.byte (Config.freeByte s.draws))).drawn 1 := by
    obtain h | h := hfree <;> simp [readCell, h]
  exact exec_read_inside (sp := .msg) (Nat.le_of_lt_succ hi) hread

/-- A written sample cell read while idle (43_host_control.md R211). -/
theorem exec_rdSmp_written {s : State} (hidle : s.busy = false) {i : ℕ} (hi : i < Config.chip.sampMax) {x : Sample}
    (hx : Memory.read s.smp i = some x) : exec (.rdSmp i) s = .next { s with port := .sample x } := by
  have hread : readCell .smp i s.toBlock = s.toBlock.respond (.sample x) := by simp [readCell, hidle, hx]
  exact exec_read_inside (sp := .smp) (Nat.le_of_lt_succ hi) hread

/-- A sample cell that nothing has written, or that a pending command may write, reads as a free value
(93_implementation_defined.md U1, U2). -/
theorem exec_rdSmp_free {s : State} {i : ℕ} (hi : i < Config.chip.sampMax)
    (hfree : s.busy = true ∨ Memory.read s.smp i = none) : exec (.rdSmp i) s =
      .next { s with port := .sample (Config.freeSample s.draws), draws := s.draws + 1 } := by
  have hread : readCell .smp i s.toBlock = (s.toBlock.respond (.sample (Config.freeSample s.draws))).drawn 1 := by
    obtain h | h := hfree <;> simp [readCell, h]
  exact exec_read_inside (sp := .smp) (Nat.le_of_lt_succ hi) hread

/-- Settles O17: each register as `readReg` shows it. -/
theorem idleRegisterReadReturnsRegister : Obligations.IdleRegisterReadReturnsRegister := by
  intro s hidle
  have hread (r : ℕ) (hr : r ≤ 10) := exec_rdReg_idle hidle hr
  refine ⟨hread 0 (by decide), hread 1 (by decide), fun hlegal => ?_, hread 2 (by decide), hread 3 (by decide),
    hread 4 (by decide), hread 5 (by decide), hread 6 (by decide), hread 7 (by decide), hread 8 (by decide),
    hread 9 (by decide), hread 10 (by decide),
    fun r hr => exec_eq_hostFault (memRead_outside _ .reg r _ hr)⟩
  rw [hread 1 (by decide), Block.readReg, statusRead_of_legalStatus hlegal]

/-- Settles O18: a cell is written, or reads as a free value, or lies outside its space. -/
theorem idleCellReadReturnsCell : Obligations.IdleCellReadReturnsCell := fun _ i hidle =>
  ⟨fun hi => ⟨fun _ hv => exec_rdMsg_written hidle hi hv, fun hnone => exec_rdMsg_free hi (.inr hnone)⟩,
    fun hi => ⟨fun _ hx => exec_rdSmp_written hidle hi hx, fun hnone => exec_rdSmp_free hi (.inr hnone)⟩,
    fun hi => exec_eq_hostFault (memRead_outside _ .msg i _ hi),
    fun hi => exec_eq_hostFault (memRead_outside _ .smp i _ hi)⟩

/-- Settles O19: the parameters are readable, what the command may write is free. -/
theorem busyReadReturnsParametersOrFreeValues : Obligations.BusyReadReturnsParametersOrFreeValues := by
  intro s hbusy
  have hread (r : ℕ) (hr : r ≤ 10) := exec_rdReg_busy hbusy hr
  refine ⟨hread 1 (by decide), hread 0 (by decide), hread 2 (by decide), hread 4 (by decide), hread 5 (by decide),
    hread 6 (by decide), fun r hr => ?_,
    fun i hi => exec_rdMsg_free hi (.inl hbusy), fun i hi => exec_rdSmp_free hi (.inl hbusy)⟩
  rw [hread r (by omega), readRegBusy_free _ hr]
  rfl

/-! ### Writes while idle -/

/-- A register write while idle, `CMD` excepted (43_host_control.md R213). -/
theorem exec_wrReg_idle {s : State} (hidle : s.busy = false) {r : ℕ} (hcmd : r ≠ 0) (hr : r ≤ 10) (v : Word) :
    exec (.wrReg r v) s = .next { s with toBlock := (s.toBlock.writeReg r v).respond .ok } := by
  refine exec_eq_of_execBlock ((memWrite_idle Config.chip .reg r (storeReg r v) s.toBlock hr hidle).trans ?_)
  rw [storeReg, if_neg hcmd]

/-- Settles O23: registers 2 to 8 are stored, 1, 9 and 10 dropped, 0 is `CMD`. -/
theorem idleRegisterWriteStores : Obligations.IdleRegisterWriteStores := by
  intro s v hidle
  have hwrite (r : ℕ) (hcmd : r ≠ 0) (hr : r ≤ 10) := exec_wrReg_idle hidle hcmd hr v
  exact ⟨hwrite 1 (by decide) (by decide), hwrite 9 (by decide) (by decide), hwrite 10 (by decide) (by decide),
    hwrite 2 (by decide) (by decide), hwrite 3 (by decide) (by decide), hwrite 4 (by decide) (by decide),
    hwrite 5 (by decide) (by decide), hwrite 6 (by decide) (by decide), hwrite 7 (by decide) (by decide),
    hwrite 8 (by decide) (by decide),
    rfl, fun r hr => exec_eq_hostFault (memWrite_outside _ .reg r _ _ hr)⟩

/-- The write rule of `CMD` on a command (43_host_control.md R215). -/
theorem storeReg_cmd_command {c : Word} (hc : c = 1#32 ∨ c = 2#32 ∨ c = 3#32) :
    storeReg (S := S) 0 c = accept c := by
  obtain rfl | rfl | rfl := hc <;> rfl

/-- Settles O24: `CMD` accepts a command, and posts UsageError for a reserved word. -/
theorem commandWriteDispatches : Obligations.CommandWriteDispatches := by
  intro s c hidle
  have hwrite : execBlock (.wrCmd c) s.toBlock = (storeReg 0 c s.toBlock).respond .ok :=
    memWrite_idle Config.chip .reg 0 (storeReg 0 c) s.toBlock (Nat.zero_le _) hidle
  refine ⟨fun hc => ?_, fun h1 h2 h3 => ?_⟩
  · rw [storeReg_cmd_command hc] at hwrite
    exact exec_eq_of_execBlock hwrite
  · rw [storeReg_cmd_reserved h1 h2 h3] at hwrite
    exact exec_eq_of_execBlock hwrite

/-- The write of a sample's word of the machine's width writes its value (20_memory.md R62). -/
theorem execBlock_wrSmp_chip (i : ℕ) (x : BitVec Config.chipWidth) (b : Block Sample) :
    execBlock (.wrSmp i ⟨Config.chipWidth, x⟩) b = memWrite Config.chip .smp i (storeSmp i (Config.chipDec x)) b :=
  memWriteWord_some (sampleOfWord_chip x) i b

/-- Settles O26: the written cell reads back, every other one reads as before. -/
theorem idleCellWriteStores : Obligations.IdleCellWriteStores := by
  intro s i v x hidle
  refine ⟨fun hi => ⟨Memory.write s.msg i v, ?_, read_write_same _ i v, fun j hj => read_write_other _ i j v hj⟩,
    fun hi => ⟨Memory.write s.smp i (Config.chipDec x), ?_, read_write_same _ i _,
      fun j hj => read_write_other _ i j _ hj⟩, fun hi => ?_, fun hi => ?_⟩
  · exact exec_eq_of_execBlock (memWrite_idle _ .msg i (storeMsg i v) _ (Nat.le_of_lt_succ hi) hidle)
  · exact exec_eq_of_execBlock ((execBlock_wrSmp_chip i x _).trans
      (memWrite_idle _ .smp i _ _ (Nat.le_of_lt_succ hi) hidle))
  · exact exec_eq_hostFault (memWrite_outside _ .msg i _ _ hi)
  · exact exec_eq_hostFault (memWriteWord_outside _ hi _ _)

/-! ### Writes while a command is pending -/

/-- While a command is pending a write only answers, by the range of its space (43_host_control.md R214). -/
theorem memWrite_busy_eq {cfg : Config S} {sp : Space} {i : ℕ} {inside : Prop} [Decidable inside]
    (hinside : inside ↔ i ≤ topIndex cfg sp) (store : Block S → Block S) {b : Block S} (hbusy : b.busy = true) :
    memWrite cfg sp i store b = b.respond (if inside then .ok else .hostFault) := by
  split_ifs with hi
  · exact memWrite_busy cfg sp i store b (hinside.1 hi) hbusy
  · exact memWrite_outside cfg sp i store b (not_le.1 (hi ∘ hinside.2))

/-- Settles O27: every write form is a `memWrite`, dropped while busy. -/
theorem writesAreDroppedWhileBusy : Obligations.WritesAreDroppedWhileBusy := by
  intro s i v c b x hbusy
  refine ⟨?_, ?_, ?_, ?_, ?_⟩ <;> apply exec_eq_of_execBlock
  · exact memWrite_busy _ .reg 0 _ _ (Nat.zero_le _) hbusy
  · exact memWrite_busy _ .reg 0 _ _ (Nat.zero_le _) hbusy
  · exact memWrite_busy_eq (sp := .reg) Iff.rfl _ hbusy
  · exact memWrite_busy_eq (sp := .msg) Nat.lt_succ_iff _ hbusy
  · rw [execBlock_wrSmp_chip]
    exact memWrite_busy_eq (sp := .smp) Nat.lt_succ_iff _ hbusy

/-! ### Turns -/

/-- Settles O8: the host's turn, said of the step. -/
theorem hostTurnRunsDecodedAccess : Obligations.HostTurnRunsDecodedAccess := fun _ _ _ _ hin hf => step_host hin hf

/-- With no input left a pending command runs at once (log 15). -/
theorem step_nil {s : State} (hin : s.inputs = []) (hbusy : s.busy = true) {i : Instr}
    (hi : pendingCommand s = some i) : step s = exec i s := by
  rw [step, turn_nil s hin, engineTurn, if_pos hbusy, hi]

/-- An engine's turn while idle only uses up its input (log 15). -/
theorem step_engine_idle {s : State} {rest : List Input} (hin : s.inputs = .engine :: rest) (hidle : s.busy = false) :
    step s = .next { s with inputs := rest } := by
  rw [step, turn_engine s rest hin, engineTurn]
  exact if_neg (by simp [hidle])

/-- The command `PEND` holds (43_host_control.md R217). -/
theorem pendingCommand_of_pend {s : State} {i : Instr}
    (h : s.pend = 1#32 ∧ i = .encd ∨ s.pend = 2#32 ∧ i = .encx ∨ s.pend = 3#32 ∧ i = .dec) :
    pendingCommand s = some i := by
  obtain ⟨hpend, rfl⟩ | ⟨hpend, rfl⟩ | ⟨hpend, rfl⟩ := h <;> rw [pendingCommand, hpend] <;> rfl

/-- A command ends in one of the completed status words and leaves the latch (10_state.md R39). -/
theorem execBlock_command_completes {i : Instr} (hi : i = .encd ∨ i = .encx ∨ i = .dec) (b : Block Sample) :
    (∃ k, (execBlock i b).status = completedWord k) ∧ (execBlock i b).pend = b.pend := by
  have hencode (v : DurationRule) : (∃ k, (encodeStep Config.chip v b).status = completedWord k) ∧
      (encodeStep Config.chip v b).pend = b.pend := ⟨encodeStep_completed _ v b, by simp⟩
  obtain rfl | rfl | rfl := hi
  · exact hencode .derived
  · exact hencode .explicit
  · exact ⟨decodeStep_completed Config.chip b, by simp [execBlock]⟩

/-- Settles O9: `PEND` names the command, and a completed status word has `BUSY` 0 and `DONE` 1. -/
theorem engineStepPerformsPendingCommand : Obligations.EngineStepPerformsPendingCommand := by
  refine ⟨fun s i hbusy hpend => ?_, fun s rest hidle hin => step_engine_idle hin hidle⟩
  have hpending := pendingCommand_of_pend hpend
  obtain ⟨⟨k, hstatus⟩, hlatch⟩ := execBlock_command_completes
    (hpend.imp And.right (Or.imp And.right And.right)) s.toBlock
  refine ⟨fun hin => step_nil hin hbusy hpending, fun rest hin => step_engine hin hbusy hpending,
    _, exec_eq i s, ?_, ?_, hlatch, rfl⟩
  · rw [onBlock_toBlock, hstatus, busy_completedWord]
  · rw [onBlock_toBlock, hstatus, done_completedWord]

/-- An engine's turn answers where a pending command is one of the three. -/
theorem engineTurn_answers {s : State} (hpend : s.busy = true → s.pend = 1#32 ∨ s.pend = 2#32 ∨ s.pend = 3#32) :
    ∃ t, engineTurn s = .next t := by
  rw [engineTurn]
  split_ifs with hbusy
  · obtain ⟨-, hi⟩ | ⟨-, hi⟩ | ⟨-, hi⟩ | ⟨⟨h1, h2, h3⟩, -⟩ := pendingCommand_cases s
    · exact ⟨_, by rw [hi]; exact exec_eq _ s⟩
    · exact ⟨_, by rw [hi]; exact exec_eq _ s⟩
    · exact ⟨_, by rw [hi]; exact exec_eq _ s⟩
    · exact absurd (hpend hbusy) (by simp [h1, h2, h3])
  · exact ⟨s, rfl⟩

/-- Settles O14: the two faults of a step are undecodable bits and a pending word that is no command. -/
theorem stepFromStateInvAnswersNext : Obligations.StepFromStateInvAnswersNext := by
  intro s hinv hhead
  cases hin : s.inputs with
  | nil =>
    rw [step, turn_nil s hin]
    exact engineTurn_answers hinv.pending
  | cons head rest =>
    cases head with
    | host f =>
      obtain ⟨i, hf⟩ := hhead f rest hin
      exact ⟨_, (step_host hin hf).trans (exec_eq i _)⟩
    | engine =>
      rw [step, turn_engine s rest hin]
      exact engineTurn_answers (s := { s with inputs := rest }) hinv.pending
    | reset => exact ⟨_, turn_reset s rest hin⟩

end Sys2Proof.Machine
end

section
/-! PROOFS, errors (60_exceptions.md R231, R240): the status word of an error, and what a command that ends in one
leaves unchanged. -/

namespace Sys2Proof.Machine

variable {S : Type}

/-- An error word has `BUSY` 0, `DONE` 1, `ERR` 1 and the code in `ECODE` (60_exceptions.md R231). -/
theorem errorWord_flags (e : ErrCode) : busyFlag (errorWord e) = false ∧ doneFlag (errorWord e) = true ∧
    errFlag (errorWord e) = true ∧ (ecodeField (errorWord e)).toNat = errorCode e := by
  cases e <;> decide

/-- Settles O29: the words are literals, and the flags are every error's. -/
theorem errorWordsAreTheTables : Obligations.ErrorWordsAreTheTables :=
  ⟨rfl, rfl, rfl, rfl, rfl, rfl, rfl, rfl, rfl, rfl, rfl, errorWord_flags⟩

theorem errFlag_successWord : errFlag successWord = false := by decide

/-- An encode that leaves `ERR` 1 raised an error, after it used up free values or none. -/
theorem encodeStep_eq_raise {cfg : Config S} {v : DurationRule} {s : Block S}
    (herr : errFlag (encodeStep cfg v s).status = true) : ∃ e k, encodeStep cfg v s = raise e (s.drawn k) := by
  obtain ⟨e, -, h⟩ | ⟨-, -, h⟩ | ⟨-, -, h⟩ := encodeStep_cases cfg v s
  · exact ⟨e, 0, h⟩
  · exact ⟨.degenerateSignal, _, h⟩
  · simp [h, errFlag_successWord] at herr

/-- A decode of numbers that leaves `ERR` 1 raised an error. -/
theorem decodeStep_eq_raise [Inhabited S] {cfg : Config S} {s : Block S}
    (hnum : allNumbers cfg.num (decodeSamples s) = true) (herr : errFlag (decodeStep cfg s).status = true) :
    ∃ e, decodeStep cfg s = raise e s := by
  obtain ⟨e, -, h⟩ | ⟨-, -, h⟩ | ⟨-, hnon, -⟩ := decodeStep_cases cfg s
  · exact ⟨e, h⟩
  · simp [h, errFlag_successWord] at herr
  · simp [hnum] at hnon

/-- A command that leaves `ERR` 1, a decode being of numbers, raised an error (60_exceptions.md R240). -/
theorem execBlock_command_eq_raise {i : Instr} (hi : i = .encd ∨ i = .encx ∨ i = .dec) {b : Block Sample}
    (herr : errFlag (execBlock i b).status = true)
    (hnum : i = .dec → allNumbers Config.chip.num (decodeSamples b) = true) :
    ∃ e k, execBlock i b = raise e (b.drawn k) := by
  obtain rfl | rfl | rfl := hi
  · exact encodeStep_eq_raise herr
  · exact encodeStep_eq_raise herr
  · obtain ⟨e, h⟩ := decodeStep_eq_raise (hnum rfl) herr
    exact ⟨e, 0, h⟩

/-- Settles O32: the command raised an error, and `raise` writes `STATUS` alone. -/
theorem errorChangesOnlyStatus : Obligations.ErrorChangesOnlyStatus := by
  refine fun s i hi => ⟨_, exec_eq i s, fun herr hnum => ?_⟩
  obtain ⟨e, k, h⟩ := execBlock_command_eq_raise hi herr hnum
  rw [State.onBlock, h]
  exact ⟨rfl, e, rfl⟩

end Sys2Proof.Machine
end

section
/-! PROOFS, reset and progress (70_reset_and_hazards.md R260 to R262, R279): what a reset leaves, the first command
after it, and the end of a pending command. -/

namespace Sys2Proof.Machine

/-! ### Reset -/

@[simp] theorem busy_resetEvent {S : Type} (b : Block S) : b.resetEvent.busy = false := by
  change busyFlag 0#32 = false; decide

/-- Settles O2: the step answers the reset block, whose registers and empty cells are literals. -/
theorem resetEventRestoresResetValues : Obligations.ResetEventRestoresResetValues := fun s rest hin =>
  ⟨_, turn_reset s rest hin, rfl, rfl, rfl, rfl, rfl, rfl, rfl, rfl, rfl, rfl, fun _ => rfl, fun _ => rfl,
    busy_resetEvent s.toBlock, rfl⟩

/-- A command whose engine step on the accepted reset block raises `e` ends in the status word of `e`. -/
theorem step_reset_command {c : Word} (hc : c = 1#32 ∨ c = 2#32 ∨ c = 3#32) {e : ErrCode}
    (h : execBlock (decodeCmd c) (accept c Block.reset) = raise e (accept c Block.reset)) :
    step (State.reset.withFetchWord 32 c.toNat) = .next { State.reset with status := errorWord e, pend := c } := by
  rw [step_withFetchWord_command State.reset hc]
  exact exec_eq_of_execBlock h

/-- The message is empty after reset, which is an encode's first check. -/
theorem encodeStep_accept_reset (v : DurationRule) (c : Word) : encodeStep Config.chip v (accept c Block.reset) =
    raise .emptyMessage (accept c Block.reset) :=
  encodeStep_of_check (encodeCheck_emptyMessage rfl)

/-- The reset rate and tones are in range, and no sample is listed, so `WRATE` 0 is a decode's first failing check. -/
theorem decodeStep_accept_reset (c : Word) : decodeStep Config.chip (accept c Block.reset) =
    raise .rateMismatch (accept c Block.reset) :=
  decodeStep_of_check (decodeCheck_rateMismatch (show 10 ≤ sint 44100#32 by decide)
    (show 0 < sint 440000#32 by decide) (show 0 < sint 880000#32 by decide) (Nat.zero_le _)
    (show sint 0#32 ≠ sint 44100#32 by decide))

/-- Settles O3: the two encodes find no message, the decode finds `WRATE` 0. -/
theorem firstCommandAfterResetHasDefinedError : Obligations.FirstCommandAfterResetHasDefinedError :=
  ⟨step_reset_command (.inl rfl) (encodeStep_accept_reset .derived _),
    step_reset_command (.inr (.inl rfl)) (encodeStep_accept_reset .explicit _),
    step_reset_command (.inr (.inr rfl)) (decodeStep_accept_reset _)⟩

/-! ### Progress -/

/-- The engine has three commands. -/
theorem command_of_pendingCommand {s : State} {i : Instr} (h : pendingCommand s = some i) :
    i = .encd ∨ i = .encx ∨ i = .dec := by
  obtain ⟨-, hi⟩ | ⟨-, hi⟩ | ⟨-, hi⟩ | ⟨-, hi⟩ := pendingCommand_cases s <;> rw [h] at hi
  · exact .inl (Option.some.inj hi)
  · exact .inr (.inl (Option.some.inj hi))
  · exact .inr (.inr (Option.some.inj hi))
  · cases hi

/-- After the engine's turn nothing is pending (43_host_control.md R218). -/
theorem engineTurn_idle {s t : State} (h : engineTurn s = .next t) : t.busy = false := by
  obtain ⟨-, i, hi, hexec⟩ | ⟨hidle, rfl⟩ := engineTurn_next h
  · obtain ⟨⟨k, hstatus⟩, -⟩ := execBlock_command_completes (command_of_pendingCommand hi) s.toBlock
    rw [(exec_next_iff i s t).1 hexec, Block.busy, onBlock_toBlock, hstatus, busy_completedWord]
  · exact hidle

/-- A step ends a pending command, or is a host access that leaves it pending. -/
theorem step_busy {s t : State} (hbusy : s.busy = true) (h : step s = .next t) :
    t.busy = false ∨ t.busy = true ∧ ∃ f, s.inputs = .host f :: t.inputs := by
  rw [step] at h
  cases hin : s.inputs with
  | nil => exact .inl (engineTurn_idle ((turn_nil s hin).symm.trans h))
  | cons head rest =>
    cases head with
    | host f =>
      obtain ⟨i, hf, -⟩ := hostTurn_next ((turn_host s f rest hin).symm.trans h)
      obtain ⟨u, hu, ⟨hstatus, -⟩, hrest⟩ := hostCannotChangeBlockWhileBusy s f rest i hbusy hin hf
      obtain rfl : u = t := Host.Outcome.next.inj (hu.symm.trans h)
      exact .inr ⟨by rw [Block.busy, hstatus]; exact hbusy, f, by rw [hrest]⟩
    | engine => exact .inl (engineTurn_idle ((turn_engine s rest hin).symm.trans h))
    | reset =>
      rw [← Host.Outcome.next.inj ((turn_reset s rest hin).symm.trans h)]
      exact .inl (busy_resetEvent s.toBlock)

theorem inputsDecode.head {s : State} (h : inputsDecode s) : headDecodes s := fun f _ hin => h f (by simp [hin])

theorem inputsDecode.tail {s t : State} (h : inputsDecode s) {f : Frame} (hin : s.inputs = .host f :: t.inputs) :
    inputsDecode t := fun g hg => h g (hin ▸ List.mem_cons_of_mem _ hg)

/-- Settles O15, by induction on the number of inputs: a step ends the command, or was a host access, and then one input
fewer is left. -/
theorem pendingCommandEnds : Obligations.PendingCommandEnds := by
  intro s
  induction hn : s.inputs.length using Nat.strong_induction_on generalizing s with
  | _ n ih =>
    intro hinv hbusy hinputs
    obtain ⟨t, hstep⟩ := stepFromStateInvAnswersNext s hinv hinputs.head
    obtain hidle | ⟨hstill, f, hin⟩ := step_busy hbusy hstep
    · exact ⟨1, by omega, t, run_next 0 s t hstep, hidle⟩
    · have hlen : n = t.inputs.length + 1 := by rw [← hn, hin, List.length_cons]
      obtain ⟨k, hk, u, hrun, hidle⟩ := ih _ (by omega) t rfl (everyStepKeepsStateInv s t hinv hstep) hstill
        (hinputs.tail hin)
      exact ⟨k + 1, by omega, u, (run_next k s t hstep).trans hrun, hidle⟩

end Sys2Proof.Machine
end
